-- ==== Sys2Proof/Word.lean ====
section
/-! DEFINITION. The word type of the NEO-5 CORE. -/

namespace Sys2Proof

/-- A 16-bit word: a memory cell (20_memory.md R61), an instruction (30_encoding.md R80), `pc` (10_state.md R28) and
the field that holds a `W`-bit register value (log 9). Bit 0 is the least significant bit (00_scope.md R10). -/
abbrev Word := BitVec 16

end Sys2Proof
end

