-- ==== Sys2Proof/Config.lean ====
section
/-! DEFINITION. What is fixed for one instance of the CORE (00_scope.md R8), and the one point the spec leaves open. -/

namespace Sys2Proof

/-- The admitted widths `W` of a general register (00_scope.md R8, R9): a width other than these two cannot be written
down, which is how the model refuses it. -/
inductive RegWidth where
  | w13
  | w16
deriving DecidableEq, Repr

/-- The parameters of an instance (00_scope.md R8). `STEP_LIMIT <= 2^32 - 1` (10_state.md R39) is its type. -/
structure Params where
  /-- `N`, the number of memory cells. -/
  memWords : Nat
  /-- `W`, the width at which ADD wraps. -/
  regWidth : RegWidth
  /-- JUMP lands at the target plus one (41_control_ops.md R121). -/
  jumpCompat : Bool
  /-- `STEP_LIMIT`. -/
  stepLimit : Option (BitVec 32)
deriving DecidableEq, Repr

/-- The constraint `1 <= N <= 65535` of 00_scope.md R8. -/
def Params.ok (p : Params) : Bool :=
  decide (1 ≤ p.memWords) && decide (p.memWords ≤ 65535)

/-- This hardware's values (00_scope.md R8, column "this hardware"). -/
def Params.neo5 : Params :=
  { memWords := 8192, regWidth := .w16, jumpCompat := false, stepLimit := none }

/-- The sentinel 0xFFFF, the end-of-program word (00_scope.md R8: fixed, not a parameter). -/
def sentinelWord : Word := 0xFFFF#16

/-- DESIGN CHOICE (log 8). 42_sequencer_and_host.md R152 gives no order between ParseError and ImageTooLarge for a stream that
has both a malformed token and more than `N` tokens: which of the two an implementation answers is left free here. -/
opaque Config.tooLargeReportedFirst : Bool

end Sys2Proof
end

