-- ==== Sys2Proof/Syntax.lean ====
section
/-! DEFINITION. The instructions: one constructor per row of spec/opcode_table.json (30_encoding.md R83, R88, R90). -/

namespace Sys2Proof

/-- The instructions, with every bit of the word below the opcode. A register field keeps its four bits, because the
values 8 to 15 have a meaning of their own (30_encoding.md R86). The ignored bits (R87) are operands that no meaning
reads, so that a word and its instruction determine each other. -/
inductive Instr where
  /-- LOAD, 0x1: `reg1`, immediate `value`. -/
  | load (reg1 : BitVec 4) (value : BitVec 8)
  /-- ADD, 0x2: `reg1`, `reg2`, ignored bits 3-0. -/
  | add (reg1 reg2 : BitVec 4) (ignored : BitVec 4)
  /-- STORE, 0x3: `reg1`, address `value`. -/
  | store (reg1 : BitVec 4) (value : BitVec 8)
  /-- JUMP, 0x4: ignored bits 11-8, address `value`. -/
  | jump (ignored : BitVec 4) (value : BitVec 8)
  /-- HALT, 0xF, any word but 0xFFFF: ignored bits 11-0. -/
  | halt (ignored : BitVec 12)
  /-- The reserved opcode 0x0. -/
  | reserved0 (ignored : BitVec 12)
  /-- The reserved opcode 0x5. -/
  | reserved5 (ignored : BitVec 12)
  /-- The reserved opcode 0x6. -/
  | reserved6 (ignored : BitVec 12)
  /-- The reserved opcode 0x7. -/
  | reserved7 (ignored : BitVec 12)
  /-- The reserved opcode 0x8. -/
  | reserved8 (ignored : BitVec 12)
  /-- The reserved opcode 0x9. -/
  | reserved9 (ignored : BitVec 12)
  /-- The reserved opcode 0xA. -/
  | reservedA (ignored : BitVec 12)
  /-- The reserved opcode 0xB. -/
  | reservedB (ignored : BitVec 12)
  /-- The reserved opcode 0xC. -/
  | reservedC (ignored : BitVec 12)
  /-- The reserved opcode 0xD. -/
  | reservedD (ignored : BitVec 12)
  /-- The reserved opcode 0xE. -/
  | reservedE (ignored : BitVec 12)
  /-- END, the sentinel word 0xFFFF, which the run loop reads before decode (41_control_ops.md R124; log 10). -/
  | endOfProgram
deriving DecidableEq, Repr

end Sys2Proof
end

