-- ==== Sys2Proof/Machine/State.lean ====
section
/-! DEFINITION. The state of the machine as plain data (10_state.md R20, 20_memory.md R60), and the state after reset. -/

namespace Sys2Proof.Machine

/-- The names of the eight general registers (10_state.md R21). -/
inductive Reg where
  | r0 | r1 | r2 | r3 | r4 | r5 | r6 | r7
deriving DecidableEq, Repr

/-- The register_file (10_state.md R21): eight registers, none special (R22). -/
structure RegFile where
  r0 : Word
  r1 : Word
  r2 : Word
  r3 : Word
  r4 : Word
  r5 : Word
  r6 : Word
  r7 : Word
deriving DecidableEq, Repr

/-- The values of `STATE` (10_state.md R36). -/
inductive RunState where
  | idle
  | running
  | halted
  | stopped
deriving DecidableEq, Repr

/-- The values of `CAUSE` (10_state.md R37). -/
inductive Cause where
  | none
  | haltOpcode
  | sentinel
  | oorFetch
  | oorReg1
  | oorReg2
  | oorData
  | stepLimit
deriving DecidableEq, Repr

/-- The kinds of OutOfRange (42_sequencer_and_host.md R146). -/
inductive OorKind where
  | fetch
  | reg1
  | reg2
  | data
deriving DecidableEq, Repr

/-- The ways a run ends, which are also its outcomes (42_sequencer_and_host.md R146, 60_exceptions.md R180). -/
inductive RunEnd where
  /-- `Halted(HALT_OPCODE)`. -/
  | haltOpcode
  /-- `Halted(SENTINEL)`. -/
  | sentinel
  /-- `OutOfRange(kind, info)`. -/
  | outOfRange (kind : OorKind) (info : Word)
  /-- `StepLimit`. -/
  | stepLimit
deriving DecidableEq, Repr

/-- A report `UnknownOpcode(pc, word)` (60_exceptions.md R182). -/
structure Report where
  pc : Word
  word : Word
deriving DecidableEq, Repr

/-- The attached memory: the cells that do not hold the reset value 0, as (address, word) pairs with addresses strictly
rising (log 2). The unit is the 16-bit cell: the machine has no byte (20_memory.md R61). -/
abbrev Memory := List (Nat × Word)

/-- What an address that is not listed reads as: 0, the value of every cell after reset (20_memory.md R68). -/
def Memory.unlisted : Word := 0#16

/-- The machine. The first field is the instance's parameters, which no step and no host command writes (log 1). -/
structure State where
  /-- The parameters of the instance (00_scope.md R8; log 1). -/
  params : Params
  /-- `pc` (10_state.md R27). -/
  pc : Word
  /-- `x[0]` to `x[7]` (10_state.md R21). -/
  regs : RegFile
  /-- `IR` (10_state.md R33; log 4). -/
  ir : Word
  /-- `STATE` (10_state.md R36). -/
  runState : RunState
  /-- `CAUSE` (10_state.md R37). -/
  cause : Cause
  /-- `FAULT_INFO` (10_state.md R38). -/
  faultInfo : Word
  /-- `STEP_COUNT` (10_state.md R39). -/
  stepCount : BitVec 32
  /-- The report list of the run, oldest first (10_state.md R41 (b), 60_exceptions.md R182). -/
  reports : List Report
  /-- `RAM[0..N-1]` (20_memory.md R60). -/
  mem : Memory
deriving DecidableEq, Repr

/-- The model's faults. The conditions of 60_exceptions.md are none of them: each is a next state (log 7). -/
inductive Fault where
  /-- `MemRead` or `MemWrite` was called with an address at or above `N`. Raised by the two memory primitives of
  Machine/Ops.lean; the rules check the address before (00_scope.md R12), so no step and no instruction answers with it.
  Safe: an access to an address that does not exist has no value (log 3). -/
  | addressOutsideMemory (addr : Word)
deriving DecidableEq, Repr

/-- The model's refusals. -/
inductive Refusal where
  /-- An instruction without a meaning, by its mnemonic. Raised by an arm of exec; no arm raises it. Safe. -/
  | notModelled (mnemonic : String)
  /-- The parameters break the constraint of 00_scope.md R8; "A model refuses" them (R9; log 1). Raised by step. Safe. -/
  | inadmissibleParams
  /-- A host command other than `read_status` while `STATE` is RUNNING, which the CORE does not admit
  (42_sequencer_and_host.md R158; log 17). Raised by the host port. Safe. -/
  | hostCommandDuringRun
deriving DecidableEq, Repr

/-- The answer of a meaning, a primitive or a step. -/
abbrev Result (α : Type) := Host.Outcome α Fault Refusal

/-- What the run loop does next (42_sequencer_and_host.md R143). -/
inductive Issue where
  /-- No run is in progress: nothing executes (60_exceptions.md R201). -/
  | hold
  /-- The run ends without a step. -/
  | endRun (o : RunEnd)
  /-- The instruction read at `pc` is executed, on the state that the fetch leaves. -/
  | run (i : Instr) (s : State)
deriving DecidableEq, Repr

/-- The register values after power-on reset (10_state.md R26, 70_reset_and_hazards.md R210). -/
def RegFile.zero : RegFile :=
  { r0 := 0, r1 := 0, r2 := 0, r3 := 0, r4 := 0, r5 := 0, r6 := 0, r7 := 0 }

/-- Power-on reset of an instance with parameters `p` (70_reset_and_hazards.md R210; log 18). -/
def State.powerOn (p : Params) : State :=
  { params := p, pc := 0, regs := RegFile.zero, ir := 0, runState := .idle, cause := .none, faultInfo := 0,
    stepCount := 0, reports := [], mem := [] }

/-- Power-on reset of this hardware (70_reset_and_hazards.md R210, 00_scope.md R8). -/
def State.reset : State := State.powerOn Params.neo5

end Sys2Proof.Machine
end

