-- ==== Sys2Proof/Machine/Operands.lean ====
section
/-! DEFINITION. The operand forms (30_encoding.md R84, R85, R86) and the arithmetic of the CORE (40_data_ops.md R104). -/

namespace Sys2Proof.Machine

/-- The number of bits of a register width. -/
def regBits (w : RegWidth) : Nat :=
  match w with
  | .w13 => 13
  | .w16 => 16

/-- The register a 4-bit field names; none for the values 8 to 15 (30_encoding.md R86, 10_state.md R24). -/
def Reg.ofField (f : BitVec 4) : Option Reg :=
  match f.toNat with
  | 0 => some .r0
  | 1 => some .r1
  | 2 => some .r2
  | 3 => some .r3
  | 4 => some .r4
  | 5 => some .r5
  | 6 => some .r6
  | 7 => some .r7
  | _ => none

/-- The field value 0 to 7 that names a register (30_encoding.md R86). -/
def Reg.field (r : Reg) : BitVec 4 :=
  match r with
  | .r0 => 0
  | .r1 => 1
  | .r2 => 2
  | .r3 => 3
  | .r4 => 4
  | .r5 => 5
  | .r6 => 6
  | .r7 => 7

/-- `x[i]` of the register_file (00_scope.md R12). -/
def RegFile.get (f : RegFile) (r : Reg) : Word :=
  match r with
  | .r0 => f.r0
  | .r1 => f.r1
  | .r2 => f.r2
  | .r3 => f.r3
  | .r4 => f.r4
  | .r5 => f.r5
  | .r6 => f.r6
  | .r7 => f.r7

/-- `x[i] <- v` of the register_file (00_scope.md R12). -/
def RegFile.set (f : RegFile) (r : Reg) (v : Word) : RegFile :=
  match r with
  | .r0 => { f with r0 := v }
  | .r1 => { f with r1 := v }
  | .r2 => { f with r2 := v }
  | .r3 => { f with r3 := v }
  | .r4 => { f with r4 := v }
  | .r5 => { f with r5 := v }
  | .r6 => { f with r6 := v }
  | .r7 => { f with r7 := v }

/-- The immediate of LOAD, `zext_W(value)` (30_encoding.md R84): both widths have more than 8 bits. -/
def immediate (value : BitVec 8) : Word := value.setWidth 16

/-- The address of STORE and JUMP, `zext_16(value)` (30_encoding.md R85). -/
def absAddr (value : BitVec 8) : Word := value.setWidth 16

/-- `zext_16` of a register field, the detail an OutOfRange records (60_exceptions.md R185, R186). -/
def fieldInfo (f : BitVec 4) : Word := f.setWidth 16

/-- The sum of ADD: the exact sum, then modulo `2^W` (40_data_ops.md R102, R104). The carry is recorded nowhere: there are
no flags (10_state.md R34). -/
def addWrap (w : RegWidth) (a b : Word) : Word :=
  BitVec.ofNat 16 ((a.toNat + b.toNat) % 2 ^ regBits w)

/-- The target of JUMP (41_control_ops.md R120; R121 under `JUMP_COMPAT`). -/
def jumpTarget (p : Params) (value : BitVec 8) : Word :=
  if p.jumpCompat then absAddr value + 1 else absAddr value

end Sys2Proof.Machine
end

