-- ==== Sys2Proof/Machine/Ops.lean ====
section
/-! DEFINITION. The named operations over memory, registers and the sequencer's status, and the one way a run ends. -/

namespace Sys2Proof.Machine

/-- Go on with the value of an answer; a fault or a refusal stays what it is. -/
def onNext {α β : Type} (o : Result α) (f : α → Result β) : Result β :=
  match o with
  | .next a => f a
  | .fault r => .fault r
  | .refused r => .refused r

/-! ### Memory (20_memory.md) -/

/-- The cell at an address; 0 where nothing is listed (20_memory.md R68). -/
def Memory.read (m : Memory) (a : Nat) : Word :=
  match m with
  | [] => Memory.unlisted
  | (b, w) :: rest => if a = b then w else Memory.read rest a

/-- The memory with one cell written; it keeps the canonical form (20_memory.md R67: every 16-bit value is stored as it is). -/
def Memory.write (m : Memory) (a : Nat) (v : Word) : Memory :=
  match m with
  | [] => if v = Memory.unlisted then [] else [(a, v)]
  | (b, w) :: rest =>
    if a < b then (if v = Memory.unlisted then (b, w) :: rest else (a, v) :: (b, w) :: rest)
    else if a = b then (if v = Memory.unlisted then rest else (a, v) :: rest)
    else (b, w) :: Memory.write rest a v

/-- Consecutive cells written from address `a` upward. -/
def Memory.writeAll (m : Memory) (a : Nat) (ws : List Word) : Memory :=
  match ws with
  | [] => m
  | w :: rest => Memory.writeAll (Memory.write m a w) (a + 1) rest

/-- The canonical form from a lower bound: addresses strictly rising, no listed cell equal to an unlisted one. -/
def Memory.wfFrom (lo : Nat) (m : Memory) : Bool :=
  match m with
  | [] => true
  | (a, v) :: rest => decide (lo ≤ a) && v != Memory.unlisted && Memory.wfFrom (a + 1) rest

/-- The canonical form, in which equal memories are equal data. -/
def Memory.wf (m : Memory) : Bool := Memory.wfFrom 0 m

/-- Every listed cell lies in `RAM[0..n-1]` (20_memory.md R60). -/
def Memory.within (n : Nat) (m : Memory) : Bool := m.all fun c => decide (c.1 < n)

/-- The word at an address of the machine's memory, for statements: no access, no check. -/
def State.peek (s : State) (a : Nat) : Word := s.mem.read a

/-- The memory replaced. -/
def State.setMem (s : State) (m : Memory) : State := { s with mem := m }

/-- `MemRead(a, 1)` (00_scope.md R12): requires `a < N`. -/
def State.memRead (s : State) (a : Word) : Result Word :=
  if a.toNat < s.params.memWords then .next (s.mem.read a.toNat) else .fault (.addressOutsideMemory a)

/-- `MemWrite(a, 1, v)` (00_scope.md R12): requires `a < N`. -/
def State.memWrite (s : State) (a v : Word) : Result State :=
  if a.toNat < s.params.memWords then .next (s.setMem (s.mem.write a.toNat v)) else .fault (.addressOutsideMemory a)

/-! ### Registers and program counter (10_state.md) -/

/-- `x[i]` (10_state.md R21). -/
def State.x (s : State) (r : Reg) : Word := s.regs.get r

/-- `x[i] <- v` (10_state.md R23). -/
def State.setReg (s : State) (r : Reg) (v : Word) : State := { s with regs := s.regs.set r v }

/-- `pc <- t` (10_state.md R29). -/
def State.setPc (s : State) (t : Word) : State := { s with pc := t }

/-- `pc <- trunc_16(pc + 1)` (10_state.md R29). -/
def State.advancePc (s : State) : State := s.setPc (s.pc + 1)

/-- `IR <- w` (10_state.md R33). -/
def State.latchIr (s : State) (w : Word) : State := { s with ir := w }

/-- `STEP_COUNT <- STEP_COUNT + 1` at the end of a step that completes, modulo `2^32` (10_state.md R39; log 11). -/
def State.countStep (s : State) : State := { s with stepCount := s.stepCount + 1 }

/-- The end of a step that goes on to the next address: `pc` advances and the step is counted (10_state.md R29, R39). -/
def State.retire (s : State) : State := s.advancePc.countStep

/-- `report UnknownOpcode(pc, IR)`: appended to the run's report list (60_exceptions.md R182). -/
def State.report (s : State) : State := { s with reports := s.reports ++ [{ pc := s.pc, word := s.ir }] }

/-! ### The end of a run (42_sequencer_and_host.md R145) -/

/-- `STATE` after a run ends (42_sequencer_and_host.md R145): HALTED for `Halted`, else STOPPED. -/
def RunEnd.runState (o : RunEnd) : RunState :=
  match o with
  | .haltOpcode => .halted
  | .sentinel => .halted
  | .outOfRange _ _ => .stopped
  | .stepLimit => .stopped

/-- The `CAUSE` of an OutOfRange kind (10_state.md R37). -/
def OorKind.cause (k : OorKind) : Cause :=
  match k with
  | .fetch => .oorFetch
  | .reg1 => .oorReg1
  | .reg2 => .oorReg2
  | .data => .oorData

/-- `CAUSE` after a run ends (10_state.md R37, 60_exceptions.md R181). -/
def RunEnd.cause (o : RunEnd) : Cause :=
  match o with
  | .haltOpcode => .haltOpcode
  | .sentinel => .sentinel
  | .outOfRange k _ => k.cause
  | .stepLimit => .stepLimit

/-- `FAULT_INFO` after a run ends (10_state.md R38): the detail of an OutOfRange, else 0. -/
def RunEnd.info (o : RunEnd) : Word :=
  match o with
  | .haltOpcode => 0
  | .sentinel => 0
  | .outOfRange _ v => v
  | .stepLimit => 0

/-- `stop o` (42_sequencer_and_host.md R145): `STATE`, `CAUSE` and `FAULT_INFO` at once; `pc`, the registers and memory are
left as the last committed step left them. This is the CORE's only form of exception entry (60_exceptions.md R193), and
the return from it is the host's `start` (R194). -/
def State.stop (s : State) (o : RunEnd) : State :=
  { s with runState := o.runState, cause := o.cause, faultInfo := o.info }

/-- `raise OutOfRange(kind, info)` (60_exceptions.md R183): nothing is written, no step is counted, the run ends. -/
def raiseOutOfRange (k : OorKind) (info : Word) (s : State) : Result State := .next (s.stop (.outOfRange k info))

/-! ### Codes the host reads (10_state.md R36, R37, R40) -/

/-- The 2-bit code of `STATE` (10_state.md R36). -/
def RunState.code (r : RunState) : BitVec 2 :=
  match r with
  | .idle => 0
  | .running => 1
  | .halted => 2
  | .stopped => 3

/-- The 3-bit code of `CAUSE` (10_state.md R37). -/
def Cause.code (c : Cause) : BitVec 3 :=
  match c with
  | .none => 0
  | .haltOpcode => 1
  | .sentinel => 2
  | .oorFetch => 3
  | .oorReg1 => 4
  | .oorReg2 => 5
  | .oorData => 6
  | .stepLimit => 7

/-- `STATUS = 0[15:5] ++ CAUSE[2:0] ++ STATE[1:0]` (10_state.md R40). -/
def State.status (s : State) : Word := 0#11 ++ s.cause.code ++ s.runState.code

end Sys2Proof.Machine
end

