-- ==== Sys2Proof/Machine/Control.lean ====
section
/-! DEFINITION. JUMP, HALT and the sentinel (41_control_ops.md R120 to R122, R124). -/

namespace Sys2Proof.Machine

/-- JUMP (41_control_ops.md R120, R121). The target is not checked here. The first operand is the ignored bits 11-8. -/
def execJump (_ignored : BitVec 4) (value : BitVec 8) (s : State) : Result State :=
  .next (s.setPc (jumpTarget s.params value)).countStep

/-- HALT (41_control_ops.md R122): the step is counted, `pc` stays, the run ends. -/
def execHalt (_ignored : BitVec 12) (s : State) : Result State :=
  .next (s.countStep.stop .haltOpcode)

/-- The sentinel (41_control_ops.md R124): the run ends, no step is counted, `pc` stays. -/
def execEndOfProgram (s : State) : Result State :=
  .next (s.stop .sentinel)

end Sys2Proof.Machine
end

