-- ==== Sys2Proof/Machine/Data.lean ====
section
/-! DEFINITION. LOAD, ADD, STORE (40_data_ops.md). -/

namespace Sys2Proof.Machine

/-- LOAD (40_data_ops.md R101). -/
def execLoad (reg1 : BitVec 4) (value : BitVec 8) (s : State) : Result State :=
  match Reg.ofField reg1 with
  | none => raiseOutOfRange .reg1 (fieldInfo reg1) s
  | some d => .next (s.setReg d (immediate value)).retire

/-- ADD (40_data_ops.md R102): the `reg1` check is first; both reads see the old values. The last operand is the four
ignored bits (30_encoding.md R87). -/
def execAdd (reg1 reg2 : BitVec 4) (_ignored : BitVec 4) (s : State) : Result State :=
  match Reg.ofField reg1 with
  | none => raiseOutOfRange .reg1 (fieldInfo reg1) s
  | some d =>
    match Reg.ofField reg2 with
    | none => raiseOutOfRange .reg2 (fieldInfo reg2) s
    | some r => .next (s.setReg d (addWrap s.params.regWidth (s.x d) (s.x r))).retire

/-- STORE (40_data_ops.md R103): the `reg1` check is before the address check (60_exceptions.md R192). The register's field
is already 16 bits wide, so `zext_16(x[reg1])` is the field itself (log 9). -/
def execStore (reg1 : BitVec 4) (value : BitVec 8) (s : State) : Result State :=
  match Reg.ofField reg1 with
  | none => raiseOutOfRange .reg1 (fieldInfo reg1) s
  | some r =>
    if s.params.memWords ≤ (absAddr value).toNat then raiseOutOfRange .data (absAddr value) s
    else onNext (s.memWrite (absAddr value) (s.x r)) fun t => .next t.retire

end Sys2Proof.Machine
end

