-- ==== Sys2Proof/Machine/Reserved.lean ====
section
/-! DEFINITION. The eleven reserved opcodes (41_control_ops.md R123): each is a definition over one shared operation. -/

namespace Sys2Proof.Machine

/-- A reserved opcode (41_control_ops.md R123): report `UnknownOpcode(pc, IR)`, then go on at the next address. -/
def unknownOpcode (s : State) : Result State := .next s.report.retire

/-- The reserved opcode 0x0 (41_control_ops.md R123). -/
def execReserved0 (_ignored : BitVec 12) (s : State) : Result State := unknownOpcode s

/-- The reserved opcode 0x5 (41_control_ops.md R123). -/
def execReserved5 (_ignored : BitVec 12) (s : State) : Result State := unknownOpcode s

/-- The reserved opcode 0x6 (41_control_ops.md R123). -/
def execReserved6 (_ignored : BitVec 12) (s : State) : Result State := unknownOpcode s

/-- The reserved opcode 0x7 (41_control_ops.md R123). -/
def execReserved7 (_ignored : BitVec 12) (s : State) : Result State := unknownOpcode s

/-- The reserved opcode 0x8 (41_control_ops.md R123). -/
def execReserved8 (_ignored : BitVec 12) (s : State) : Result State := unknownOpcode s

/-- The reserved opcode 0x9 (41_control_ops.md R123). -/
def execReserved9 (_ignored : BitVec 12) (s : State) : Result State := unknownOpcode s

/-- The reserved opcode 0xA (41_control_ops.md R123). -/
def execReservedA (_ignored : BitVec 12) (s : State) : Result State := unknownOpcode s

/-- The reserved opcode 0xB (41_control_ops.md R123). -/
def execReservedB (_ignored : BitVec 12) (s : State) : Result State := unknownOpcode s

/-- The reserved opcode 0xC (41_control_ops.md R123). -/
def execReservedC (_ignored : BitVec 12) (s : State) : Result State := unknownOpcode s

/-- The reserved opcode 0xD (41_control_ops.md R123). -/
def execReservedD (_ignored : BitVec 12) (s : State) : Result State := unknownOpcode s

/-- The reserved opcode 0xE (41_control_ops.md R123). -/
def execReservedE (_ignored : BitVec 12) (s : State) : Result State := unknownOpcode s

end Sys2Proof.Machine
end

