-- ==== Sys2Proof/Machine/Dispatch.lean ====
section
/-! DEFINITION. The dispatch table (42_sequencer_and_host.md R144): one arm per constructor. -/

namespace Sys2Proof.Machine

def exec (i : Instr) (s : State) : Host.Outcome State Fault Refusal :=
  match i with
  | .load reg1 value => Sys2Proof.Machine.execLoad reg1 value s
  | .add reg1 reg2 ignored => Sys2Proof.Machine.execAdd reg1 reg2 ignored s
  | .store reg1 value => Sys2Proof.Machine.execStore reg1 value s
  | .jump ignored value => Sys2Proof.Machine.execJump ignored value s
  | .halt ignored => Sys2Proof.Machine.execHalt ignored s
  | .reserved0 ignored => Sys2Proof.Machine.execReserved0 ignored s
  | .reserved5 ignored => Sys2Proof.Machine.execReserved5 ignored s
  | .reserved6 ignored => Sys2Proof.Machine.execReserved6 ignored s
  | .reserved7 ignored => Sys2Proof.Machine.execReserved7 ignored s
  | .reserved8 ignored => Sys2Proof.Machine.execReserved8 ignored s
  | .reserved9 ignored => Sys2Proof.Machine.execReserved9 ignored s
  | .reservedA ignored => Sys2Proof.Machine.execReservedA ignored s
  | .reservedB ignored => Sys2Proof.Machine.execReservedB ignored s
  | .reservedC ignored => Sys2Proof.Machine.execReservedC ignored s
  | .reservedD ignored => Sys2Proof.Machine.execReservedD ignored s
  | .reservedE ignored => Sys2Proof.Machine.execReservedE ignored s
  | .endOfProgram => Sys2Proof.Machine.execEndOfProgram s

end Sys2Proof.Machine
end

