-- ==== Sys2Proof/WellFormed.lean ====
section
/-! DEFINITION. Which terms of the syntax stand for a word. -/

namespace Sys2Proof

/-- The one check: a HALT whose ignored bits are all ones would be the word 0xFFFF, which is the sentinel and not a HALT
(30_encoding.md R90, 41_control_ops.md R122). Every other term is the instruction of some word (R92: decoding is total). -/
def Instr.wellFormed (i : Instr) : Bool :=
  match i with
  | .load _ _ => true
  | .add _ _ _ => true
  | .store _ _ => true
  | .jump _ _ => true
  | .halt ignored => ignored != 0xFFF#12
  | .reserved0 _ => true
  | .reserved5 _ => true
  | .reserved6 _ => true
  | .reserved7 _ => true
  | .reserved8 _ => true
  | .reserved9 _ => true
  | .reservedA _ => true
  | .reservedB _ => true
  | .reservedC _ => true
  | .reservedD _ => true
  | .reservedE _ => true
  | .endOfProgram => true

end Sys2Proof
end

