-- ==== Sys2Proof/Decode.lean ====
section
/-! DEFINITION. Decoding, total on every word (30_encoding.md R81, R88, R90, R92), and the encoder of the same table. -/

namespace Sys2Proof

/-- `opcode = IR[15:12]` (30_encoding.md R81). -/
def opcodeOf (w : Word) : BitVec 4 := w.extractLsb' 12 4

/-- `reg1 = IR[11:8]` (30_encoding.md R81). -/
def reg1Of (w : Word) : BitVec 4 := w.extractLsb' 8 4

/-- `reg2 = IR[7:4]` (30_encoding.md R81). -/
def reg2Of (w : Word) : BitVec 4 := w.extractLsb' 4 4

/-- `value = IR[7:0]` (30_encoding.md R81). -/
def valueOf (w : Word) : BitVec 8 := w.extractLsb' 0 8

/-- Bits 3-0, which ADD ignores (30_encoding.md R87). -/
def low4Of (w : Word) : BitVec 4 := w.extractLsb' 0 4

/-- Bits 11-0, which HALT and the reserved opcodes ignore (30_encoding.md R87). -/
def low12Of (w : Word) : BitVec 12 := w.extractLsb' 0 12

/-- The opcode map (30_encoding.md R88), without the sentinel: what the dispatch of the step reads
(42_sequencer_and_host.md R144). The last case is opcode 0xF. -/
def decodeOpcode (w : Word) : Instr :=
  match (opcodeOf w).toNat with
  | 0x0 => .reserved0 (low12Of w)
  | 0x1 => .load (reg1Of w) (valueOf w)
  | 0x2 => .add (reg1Of w) (reg2Of w) (low4Of w)
  | 0x3 => .store (reg1Of w) (valueOf w)
  | 0x4 => .jump (reg1Of w) (valueOf w)
  | 0x5 => .reserved5 (low12Of w)
  | 0x6 => .reserved6 (low12Of w)
  | 0x7 => .reserved7 (low12Of w)
  | 0x8 => .reserved8 (low12Of w)
  | 0x9 => .reserved9 (low12Of w)
  | 0xA => .reservedA (low12Of w)
  | 0xB => .reservedB (low12Of w)
  | 0xC => .reservedC (low12Of w)
  | 0xD => .reservedD (low12Of w)
  | 0xE => .reservedE (low12Of w)
  | _ => .halt (low12Of w)

/-- The word the run loop reads at `pc`: the sentinel test stands before decoding (30_encoding.md R90, R92). Decoding never
rejects a word. -/
def decode (w : Word) : Instr :=
  if w = sentinelWord then .endOfProgram else decodeOpcode w

/-- The bit pattern `oooo rrrr vvvvvvvv` of the formats RI, RA and A (30_encoding.md R83). -/
def packValue (opcode reg1 : BitVec 4) (value : BitVec 8) : Word := opcode ++ reg1 ++ value

/-- The bit pattern `oooo dddd ssss xxxx` of the format RR (30_encoding.md R83). -/
def packRegs (opcode reg1 reg2 low : BitVec 4) : Word := opcode ++ reg1 ++ reg2 ++ low

/-- The bit pattern `oooo xxxxxxxxxxxx` of the format N (30_encoding.md R83). -/
def packLow (opcode : BitVec 4) (low : BitVec 12) : Word := opcode ++ low

/-- The word of an instruction (30_encoding.md R83). -/
def encode (i : Instr) : Word :=
  match i with
  | .load reg1 value => packValue 0x1#4 reg1 value
  | .add reg1 reg2 ignored => packRegs 0x2#4 reg1 reg2 ignored
  | .store reg1 value => packValue 0x3#4 reg1 value
  | .jump ignored value => packValue 0x4#4 ignored value
  | .halt ignored => packLow 0xF#4 ignored
  | .reserved0 ignored => packLow 0x0#4 ignored
  | .reserved5 ignored => packLow 0x5#4 ignored
  | .reserved6 ignored => packLow 0x6#4 ignored
  | .reserved7 ignored => packLow 0x7#4 ignored
  | .reserved8 ignored => packLow 0x8#4 ignored
  | .reserved9 ignored => packLow 0x9#4 ignored
  | .reservedA ignored => packLow 0xA#4 ignored
  | .reservedB ignored => packLow 0xB#4 ignored
  | .reservedC ignored => packLow 0xC#4 ignored
  | .reservedD ignored => packLow 0xD#4 ignored
  | .reservedE ignored => packLow 0xE#4 ignored
  | .endOfProgram => sentinelWord

/-- The opcode value of an instruction's row (30_encoding.md R88; the sentinel has opcode 0xF, R90). -/
def Instr.opcode (i : Instr) : BitVec 4 :=
  match i with
  | .load _ _ => 0x1#4
  | .add _ _ _ => 0x2#4
  | .store _ _ => 0x3#4
  | .jump _ _ => 0x4#4
  | .halt _ => 0xF#4
  | .reserved0 _ => 0x0#4
  | .reserved5 _ => 0x5#4
  | .reserved6 _ => 0x6#4
  | .reserved7 _ => 0x7#4
  | .reserved8 _ => 0x8#4
  | .reserved9 _ => 0x9#4
  | .reservedA _ => 0xA#4
  | .reservedB _ => 0xB#4
  | .reservedC _ => 0xC#4
  | .reservedD _ => 0xD#4
  | .reservedE _ => 0xE#4
  | .endOfProgram => 0xF#4

/-- What the decoder reads from a row's word, numbered as spec/opcode_table.json numbers its bits. An instruction is one
16-bit word (30_encoding.md R80): with more bits there is no instruction. -/
def decodeTableWord (nbits w : Nat) : Option Instr :=
  if nbits ≤ 16 then some (decode (BitVec.ofNat 16 (w % 2 ^ nbits))) else none

end Sys2Proof
end

