-- ==== Sys2Proof/Machine/Sequencer.lean ====
section
/-! DEFINITION. The control_sequencer's run loop up to the dispatch (42_sequencer_and_host.md R143, 60_exceptions.md R192). -/

namespace Sys2Proof.Machine

/-- The step-limit check (60_exceptions.md R189). -/
def State.atStepLimit (s : State) : Bool :=
  match s.params.stepLimit with
  | none => false
  | some limit => s.stepCount == limit

/-- The bounds check of the fetch, `pc >= N` (60_exceptions.md R184). -/
def State.fetchOutOfRange (s : State) : Bool := decide (s.params.memWords ≤ s.pc.toNat)

/-- What an iteration does with the word at `pc`: the sentinel is tested before the step limit (60_exceptions.md R192), and
only a step latches `IR` (42_sequencer_and_host.md R144). -/
def issueWord (w : Word) (s : State) : Issue :=
  if w = sentinelWord then .run (decode w) s
  else if s.atStepLimit then .endRun .stepLimit
  else .run (decode w) (s.latchIr w)

/-- One iteration of the run loop up to the dispatch (42_sequencer_and_host.md R143): bounds, then the word at `pc`. When no
run is in progress the CORE executes nothing (60_exceptions.md R201). Parameters that 00_scope.md R8 forbids are refused
(R9). -/
def nextIssue (s : State) : Result Issue :=
  if s.params.ok then
    match s.runState with
    | .running =>
      if s.fetchOutOfRange then .next (.endRun (.outOfRange .fetch s.pc))
      else onNext (s.memRead s.pc) fun w => .next (issueWord w s)
    | .idle => .next .hold
    | .halted => .next .hold
    | .stopped => .next .hold
  else .refused .inadmissibleParams

/-- The word of a table row stored where the next fetch reads it, with a run in progress, as `load_image` and `start` leave
it (log 6). -/
def State.placeWord (s : State) (w : Word) : State :=
  { s with mem := s.mem.write s.pc.toNat w, runState := .running }

end Sys2Proof.Machine
end

