-- ==== Sys2Proof/Machine/Step.lean ====
section
/-! DEFINITION. One step of the machine: one iteration of the run loop (42_sequencer_and_host.md R143; log 5). -/

namespace Sys2Proof.Machine

/-- One iteration of the run loop (42_sequencer_and_host.md R143): hold, end the run, or execute one instruction. -/
def step (s : State) : Host.Outcome State Fault Refusal :=
  match nextIssue s with
  | .next .hold => .next s
  | .next (.endRun o) => .next (s.stop o)
  | .next (.run i t) => exec i t
  | .fault r => .fault r
  | .refused r => .refused r

/-- The state in which the very next step runs the instruction whose bits are `w` (log 6). An instruction is one word
(30_encoding.md R80). -/
def State.withFetchWord (s : State) (nbits w : Nat) : State :=
  s.placeWord (BitVec.ofNat 16 (w % 2 ^ nbits))

end Sys2Proof.Machine
end

