-- ==== Sys2Proof/Machine/HostPort.lean ====
section
/-! DEFINITION. The host's five commands (42_sequencer_and_host.md R141) and the run result (R146). They act between runs,
beside the step (log 6). -/

namespace Sys2Proof.Machine

/-! ### The image text (42_sequencer_and_host.md R150, R151) -/

/-- Whitespace of the image stream (42_sequencer_and_host.md R151): space, tab, carriage return, newline. -/
def isImageSpace (c : Char) : Bool := c == ' ' || c == '\t' || c == '\r' || c == '\n'

/-- The tokens of a stream, `cur` holding the characters of the token being read, last first. -/
def tokensFrom (cur : List Char) (cs : List Char) : List (List Char) :=
  match cs with
  | [] => if cur.isEmpty then [] else [cur.reverse]
  | c :: rest =>
    if isImageSpace c then (if cur.isEmpty then tokensFrom [] rest else cur.reverse :: tokensFrom [] rest)
    else tokensFrom (c :: cur) rest

/-- The maximal runs of non-whitespace characters of a stream, in order (42_sequencer_and_host.md R151). -/
def imageTokens (cs : List Char) : List (List Char) := tokensFrom [] cs

/-- The value of a hexadecimal digit (42_sequencer_and_host.md R151). -/
def hexDigit (c : Char) : Option Nat :=
  let n := c.toNat
  if 48 ≤ n ∧ n ≤ 57 then some (n - 48)
  else if 97 ≤ n ∧ n ≤ 102 then some (n - 87)
  else if 65 ≤ n ∧ n ≤ 70 then some (n - 55)
  else none

/-- The value of digits read most-significant first, after the value `acc` of those before (42_sequencer_and_host.md R151). -/
def hexValue (acc : Nat) (cs : List Char) : Option Nat :=
  match cs with
  | [] => some acc
  | c :: rest =>
    match hexDigit c with
    | none => none
    | some d => hexValue (acc * 16 + d) rest

/-- A token without its optional prefix `0x` or `0X` (42_sequencer_and_host.md R151). -/
def dropHexPrefix (t : List Char) : List Char :=
  match t with
  | '0' :: 'x' :: ds => ds
  | '0' :: 'X' :: ds => ds
  | ds => ds

/-- The value of a token: one to four hexadecimal digits after the optional prefix; none for any other token
(42_sequencer_and_host.md R151). -/
def parseToken (t : List Char) : Option Word :=
  let ds := dropHexPrefix t
  if 1 ≤ ds.length ∧ ds.length ≤ 4 then (hexValue 0 ds).map (BitVec.ofNat 16) else none

/-- The results of a failed `load_image` (42_sequencer_and_host.md R152, 60_exceptions.md R190). -/
inductive LoadFailure where
  /-- LoadError: the source cannot be opened or read. -/
  | loadError
  /-- ParseError: the first malformed token, counted from 0. -/
  | parseError (index : Nat) (token : List Char)
  /-- ImageTooLarge: the number of tokens of the stream. -/
  | imageTooLarge (len : Nat)
deriving DecidableEq, Repr

/-- The words of the tokens, or the first malformed token, `i` being the index of the first of them. -/
def parseTokens (i : Nat) (ts : List (List Char)) : Except LoadFailure (List Word) :=
  match ts with
  | [] => .ok []
  | t :: rest =>
    match parseToken t with
    | none => .error (.parseError i t)
    | some w =>
      match parseTokens (i + 1) rest with
      | .error e => .error e
      | .ok ws => .ok (w :: ws)

/-- Every check of the loader, before it writes any cell (42_sequencer_and_host.md R152). A source that cannot be read is
`none` (log 16). Where a stream has a malformed token and too many tokens, the spec does not say which is answered (log 8). -/
def checkImage (n : Nat) (source : Option (List Char)) : Except LoadFailure (List Word) :=
  match source with
  | none => .error .loadError
  | some cs =>
    let ts := imageTokens cs
    match parseTokens 0 ts with
    | .error e => if decide (n < ts.length) && Config.tooLargeReportedFirst then .error (.imageTooLarge ts.length) else .error e
    | .ok ws => if n < ts.length then .error (.imageTooLarge ts.length) else .ok ws

/-! ### Commands and answers -/

/-- The host's commands (42_sequencer_and_host.md R141). -/
inductive HostCommand where
  | loadImage (source : Option (List Char))
  | start
  | dumpRegisters
  | dumpMemory (lo count : Nat)
  | readStatus
deriving DecidableEq, Repr

/-- What `read_status` returns (42_sequencer_and_host.md R156). -/
structure StatusView where
  status : Word
  faultInfo : Word
  stepCount : BitVec 32
  pc : Word
deriving DecidableEq, Repr

/-- The answers of the host port (42_sequencer_and_host.md R157). -/
inductive HostReply where
  /-- `load_image` succeeded. -/
  | loaded
  /-- `load_image` failed; memory is unchanged. -/
  | loadFailed (e : LoadFailure)
  /-- A run has begun; its result is State.runResult once it ends. -/
  | started
  /-- `x[0]` to `x[7]`. -/
  | registers (xs : List Word)
  /-- The words of a range. -/
  | words (ws : List Word)
  /-- OutOfRange: the range passes the end of memory (42_sequencer_and_host.md R155). -/
  | rangeOutOfRange
  /-- The status values. -/
  | status (v : StatusView)
deriving DecidableEq, Repr

/-- `load_image` (42_sequencer_and_host.md R150, R152): no register, no `pc`, no status is written. -/
def State.loadImage (source : Option (List Char)) (s : State) : State × HostReply :=
  match checkImage s.params.memWords source with
  | .error e => (s, .loadFailed e)
  | .ok ws => (s.setMem (s.mem.writeAll 0 ws), .loaded)

/-- The effect of `start` (42_sequencer_and_host.md R142, 70_reset_and_hazards.md R211): registers, memory and `IR` keep their
values. -/
def State.startRun (s : State) : State :=
  { s with pc := 0, runState := .running, cause := .none, faultInfo := 0, stepCount := 0, reports := [] }

/-- `dump_registers` (42_sequencer_and_host.md R154). -/
def State.dumpRegisters (s : State) : List Word :=
  [s.x .r0, s.x .r1, s.x .r2, s.x .r3, s.x .r4, s.x .r5, s.x .r6, s.x .r7]

/-- `dump_memory(lo, count)` (42_sequencer_and_host.md R155). -/
def State.dumpMemory (lo count : Nat) (s : State) : HostReply :=
  if s.params.memWords < lo + count then .rangeOutOfRange
  else .words ((List.range count).map fun i => s.mem.read (lo + i))

/-- `read_status` (42_sequencer_and_host.md R156). -/
def State.readStatus (s : State) : StatusView :=
  { status := s.status, faultInfo := s.faultInfo, stepCount := s.stepCount, pc := s.pc }

/-- A command that is admitted only when `STATE` is not RUNNING (42_sequencer_and_host.md R158). -/
def betweenRuns (s : State) (answer : State × HostReply) : Result (State × HostReply) :=
  match s.runState with
  | .running => .refused .hostCommandDuringRun
  | .idle => .next answer
  | .halted => .next answer
  | .stopped => .next answer

/-- The host port (42_sequencer_and_host.md R141, R157, R158): the state after a command, and the answer. -/
def hostCommand (c : HostCommand) (s : State) : Result (State × HostReply) :=
  match c with
  | .loadImage source => betweenRuns s (s.loadImage source)
  | .start => betweenRuns s (s.startRun, .started)
  | .dumpRegisters => betweenRuns s (s, .registers s.dumpRegisters)
  | .dumpMemory lo count => betweenRuns s (s, s.dumpMemory lo count)
  | .readStatus => .next (s, .status s.readStatus)

/-! ### The run result (42_sequencer_and_host.md R146) -/

/-- What `run_to_completion` returns (42_sequencer_and_host.md R146). -/
structure RunResult where
  outcome : RunEnd
  reports : List Report
  steps : BitVec 32
  pc : Word
deriving DecidableEq, Repr

/-- The outcome the status registers hold (60_exceptions.md R180, R181); none while no run has ended. -/
def State.outcome (s : State) : Option RunEnd :=
  match s.cause with
  | .none => none
  | .haltOpcode => some .haltOpcode
  | .sentinel => some .sentinel
  | .oorFetch => some (.outOfRange .fetch s.faultInfo)
  | .oorReg1 => some (.outOfRange .reg1 s.faultInfo)
  | .oorReg2 => some (.outOfRange .reg2 s.faultInfo)
  | .oorData => some (.outOfRange .data s.faultInfo)
  | .stepLimit => some .stepLimit

/-- The result of the last run (42_sequencer_and_host.md R146); none while it goes on (R147) and before the first. -/
def State.runResult (s : State) : Option RunResult :=
  s.outcome.map fun o => { outcome := o, reports := s.reports, steps := s.stepCount, pc := s.pc }

end Sys2Proof.Machine
end

