-- ==== Sys2Proof/Machine/Assembler.lean ====
section
/-! DEFINITION. The assembly notation of the spec (30_encoding.md R93, R94): no hardware, but the spec's own text for words. -/

namespace Sys2Proof.Machine

/-- A line of assembly (30_encoding.md R93, R94), its operands as written. -/
inductive AsmLine where
  | load (d imm : Nat)
  | add (d s : Nat)
  | store (s addr : Nat)
  | jump (addr : Nat)
  | halt
  /-- `.word h`: the word itself. -/
  | word (h : Nat)
  /-- `END`: the sentinel. -/
  | endMark
deriving DecidableEq, Repr

/-- The word, if the operands are in their ranges; the assembler refuses any other line (30_encoding.md R93, R94). -/
def wordIf (inRange : Bool) (h : Nat) : Option Word :=
  if inRange then some (BitVec.ofNat 16 h) else none

/-- The word a line encodes as (30_encoding.md R93, R94); 0 in every ignored bit. -/
def assemble (l : AsmLine) : Option Word :=
  match l with
  | .load d imm => wordIf (decide (d ≤ 7) && decide (imm ≤ 255)) (0x1000 + d * 0x100 + imm)
  | .add d s => wordIf (decide (d ≤ 7) && decide (s ≤ 7)) (0x2000 + d * 0x100 + s * 0x10)
  | .store s addr => wordIf (decide (s ≤ 7) && decide (addr ≤ 255)) (0x3000 + s * 0x100 + addr)
  | .jump addr => wordIf (decide (addr ≤ 255)) (0x4000 + addr)
  | .halt => some 0xF000#16
  | .word h => wordIf (decide (h ≤ 0xFFFF)) h
  | .endMark => some sentinelWord

/-- Capital letters for small ones: mnemonics are case-insensitive (30_encoding.md R93). -/
def upper (cs : List Char) : List Char :=
  cs.map fun c => if 97 ≤ c.toNat ∧ c.toNat ≤ 122 then Char.ofNat (c.toNat - 32) else c

/-- The line before its comment: `;` starts one (30_encoding.md R93). -/
def dropComment (cs : List Char) : List Char := cs.takeWhile fun c => c != ';'

/-- A comma stands as a token of its own (30_encoding.md R93; log 13). -/
def spaceCommas (cs : List Char) : List Char :=
  cs.flatMap fun c => if c == ',' then [' ', ',', ' '] else [c]

/-- The value of decimal digits, after the value `acc` of those before. -/
def decimalValue (acc : Nat) (cs : List Char) : Option Nat :=
  match cs with
  | [] => some acc
  | c :: rest => if 48 ≤ c.toNat ∧ c.toNat ≤ 57 then decimalValue (acc * 10 + (c.toNat - 48)) rest else none

/-- A number: `0x...` hexadecimal, else decimal (00_scope.md R10). -/
def parseNumber (cs : List Char) : Option Nat :=
  match cs with
  | [] => none
  | ['0', 'x'] => none
  | '0' :: 'x' :: ds => hexValue 0 ds
  | ds => decimalValue 0 ds

/-- A register: `R` and its number (30_encoding.md R93). -/
def parseRegister (cs : List Char) : Option Nat :=
  match cs with
  | ['R'] => none
  | 'R' :: ds => decimalValue 0 ds
  | _ => none

/-- The line the tokens write; none where they write no line (30_encoding.md R93, R94). DESIGN CHOICE (log 13): the directives
`.word` and `END` are read in any letter case, as R93 says of mnemonics; R94 does not say. -/
def parseLineTokens (ts : List (List Char)) : Option AsmLine :=
  match ts with
  | [m] =>
    if upper m == ['H', 'A', 'L', 'T'] then some .halt
    else if upper m == ['E', 'N', 'D'] then some .endMark
    else none
  | [m, a] =>
    if upper m == ['J', 'U', 'M', 'P'] then (parseNumber a).map .jump
    else if upper m == ['.', 'W', 'O', 'R', 'D'] then (parseNumber a).map .word
    else none
  | [m, r, comma, a] =>
    if comma == [','] then
      match parseRegister r, parseNumber a, parseRegister a with
      | some d, some n, _ =>
        if upper m == ['L', 'O', 'A', 'D'] then some (.load d n)
        else if upper m == ['S', 'T', 'O', 'R', 'E'] then some (.store d n)
        else none
      | some d, none, some n => if upper m == ['A', 'D', 'D'] then some (.add d n) else none
      | some _, none, none => none
      | none, _, _ => none
    else none
  | _ => none

/-- The answer for one line of text. -/
inductive AsmAnswer where
  /-- Nothing but a comment or spaces. -/
  | blank
  /-- The word of the line. -/
  | word (w : Word)
  /-- The line is no assembly line, or an operand is out of its range. -/
  | refused
deriving DecidableEq, Repr

/-- One line of assembly text (30_encoding.md R93, R94). -/
def assembleText (cs : List Char) : AsmAnswer :=
  match imageTokens (spaceCommas (dropComment cs)) with
  | [] => .blank
  | ts =>
    match parseLineTokens ts with
    | none => .refused
    | some l =>
      match assemble l with
      | none => .refused
      | some w => .word w

end Sys2Proof.Machine
end

