-- ==== Sys2Proof/Machine/Blocks.lean ====
section
/-! DEFINITION. The six sub-blocks and their ports (10_state.md R42 to R49), the commit table (42_sequencer_and_host.md R160)
and one iteration in the phases CHECK, FETCH, DECODE, COMMIT (R159): a second, hardware-shaped description of the same
machine. An output that is not driven, or "n/a" in the spec, is none (log 12). -/

namespace Sys2Proof.Machine

/-! ### fetch_unit (10_state.md R45) and the memory's read port (20_memory.md R78) -/

/-- The fetch_unit's outputs toward memory and the sequencer (10_state.md R45). -/
structure FetchPorts where
  imemAddr : Word
  imemRe : Bool
  fetchOor : Bool
deriving DecidableEq, Repr

/-- The fetch_unit (10_state.md R45): it never drives `imem_re` for an address at or above `N`. -/
def fetchUnit (n : Nat) (pc : Word) (fetch : Bool) : FetchPorts :=
  { imemAddr := pc, imemRe := fetch && !decide (n ≤ pc.toNat), fetchOor := decide (n ≤ pc.toNat) }

/-- `imem_rdata`: the cell before the current step's commit (20_memory.md R78); none when nothing is read. -/
def memoryReadPort (m : Memory) (p : FetchPorts) : Option Word :=
  if p.imemRe then some (m.read p.imemAddr.toNat) else none

/-- `is_sentinel` (10_state.md R45). -/
def isSentinel (rdata : Option Word) : Bool := rdata == some sentinelWord

/-! ### instruction_decoder (10_state.md R46) -/

/-- The instruction_decoder's outputs (10_state.md R46). -/
structure DecoderPorts where
  opcode : BitVec 4
  reg1 : BitVec 4
  reg2 : BitVec 4
  value : BitVec 8
  opLoad : Bool
  opAdd : Bool
  opStore : Bool
  opJump : Bool
  opHalt : Bool
  opUnknown : Bool
  reg1Oor : Bool
  reg2Oor : Bool
  useReg1 : Bool
  useReg2 : Bool
deriving DecidableEq, Repr

/-- The instruction_decoder (10_state.md R46, 30_encoding.md R92); the range flags are `ir[11]` and `ir[7]`. -/
def instructionDecoder (ir : Word) : DecoderPorts :=
  let opcode := opcodeOf ir
  let opLoad := opcode == 0x1#4
  let opAdd := opcode == 0x2#4
  let opStore := opcode == 0x3#4
  let opJump := opcode == 0x4#4
  let opHalt := opcode == 0xF#4
  { opcode := opcode, reg1 := reg1Of ir, reg2 := reg2Of ir, value := valueOf ir,
    opLoad := opLoad, opAdd := opAdd, opStore := opStore, opJump := opJump, opHalt := opHalt,
    opUnknown := !(opLoad || opAdd || opStore || opJump || opHalt),
    reg1Oor := ir.getLsbD 11, reg2Oor := ir.getLsbD 7,
    useReg1 := opLoad || opAdd || opStore, useReg2 := opAdd }

/-! ### register_file (10_state.md R47) -/

/-- The register a 3-bit index addresses (10_state.md R47). -/
def Reg.ofIndex (i : BitVec 3) : Reg :=
  match i.toNat with
  | 0 => .r0
  | 1 => .r1
  | 2 => .r2
  | 3 => .r3
  | 4 => .r4
  | 5 => .r5
  | 6 => .r6
  | _ => .r7

/-- A read port: bit 3 of the field is dropped (10_state.md R47). -/
def registerRead (f : RegFile) (field : BitVec 4) : Word := f.get (Reg.ofIndex (field.setWidth 3))

/-- The register_file's write port: a register is written at a commit with `we`, and at no other time (10_state.md R47).
Write data that is not driven (log 12) writes nothing; `we` comes with data in every row of the commit table. -/
def registerCommit (f : RegFile) (we : Bool) (field : BitVec 4) (wdata : Option Word) (commit : Bool) : RegFile :=
  match commit && we, wdata with
  | true, some v => f.set (Reg.ofIndex (field.setWidth 3)) v
  | true, none => f
  | false, _ => f

/-! ### alu_datapath (10_state.md R48) -/

/-- The alu_datapath's outputs (10_state.md R48). -/
structure AluPorts where
  rfWdata : Option Word
  dmemAddr : Word
  dmemWdata : Word
  dataOor : Bool
  pcTarget : Word
deriving DecidableEq, Repr

/-- The alu_datapath (10_state.md R48). -/
def aluDatapath (p : Params) (d : DecoderPorts) (ra rb : Word) : AluPorts :=
  { rfWdata := if d.opLoad then some (immediate d.value) else if d.opAdd then some (addWrap p.regWidth ra rb) else none,
    dmemAddr := absAddr d.value, dmemWdata := ra,
    dataOor := d.opStore && decide (p.memWords ≤ (absAddr d.value).toNat),
    pcTarget := jumpTarget p d.value }

/-! ### program_counter (10_state.md R43) -/

/-- The program_counter's select inputs (10_state.md R43). -/
structure PcSelect where
  clear : Bool
  inc : Bool
  load : Bool
deriving DecidableEq, Repr

/-- The program_counter at a commit (10_state.md R43). -/
def programCounter (pc : Word) (sel : PcSelect) (target : Word) (commit : Bool) : Word :=
  if commit then
    if sel.clear then 0 else if sel.inc then pc + 1 else if sel.load then target else pc
  else pc

/-! ### control_sequencer (10_state.md R49) -/

/-- The enables the control_sequencer drives at COMMIT (10_state.md R49, 42_sequencer_and_host.md R160). -/
structure Enables where
  commit : Bool
  pcSel : PcSelect
  we : Bool
  dmemWe : Bool
  diagValid : Bool
  /-- The halt signal of a HALT step (10_state.md R41 (a)). -/
  haltSignal : Bool
deriving DecidableEq, Repr

/-- The fault of a step, in the order of 60_exceptions.md R192 (42_sequencer_and_host.md R160: a step faults when a used index
is out of the bank, or the data address is out of range). -/
def stepFault (d : DecoderPorts) (a : AluPorts) : Option RunEnd :=
  if d.useReg1 && d.reg1Oor then some (.outOfRange .reg1 (fieldInfo d.reg1))
  else if d.useReg2 && d.reg2Oor then some (.outOfRange .reg2 (fieldInfo d.reg2))
  else if a.dataOor then some (.outOfRange .data a.dmemAddr)
  else none

/-- The commit enables of a step (42_sequencer_and_host.md R160): every enable is 0 when the step faults. -/
def commitEnables (d : DecoderPorts) (faults : Bool) : Enables :=
  { commit := !faults,
    pcSel := { clear := false, inc := !faults && (d.opLoad || d.opAdd || d.opStore || d.opUnknown),
               load := !faults && d.opJump },
    we := !faults && (d.opLoad || d.opAdd), dmemWe := !faults && d.opStore,
    diagValid := !faults && d.opUnknown, haltSignal := !faults && d.opHalt }

/-- The enables of an iteration that executes no step. -/
def idleEnables : Enables :=
  { commit := false, pcSel := { clear := false, inc := false, load := false }, we := false, dmemWe := false,
    diagValid := false, haltSignal := false }

/-- What the ports of 10_state.md R43 to R49 and 20_memory.md R78 carry in one iteration; `diag` is `diag_pc` and `diag_word`
under `diag_valid`, `done` the end of the run (42_sequencer_and_host.md R145). -/
structure Signals where
  fetch : FetchPorts
  imemRdata : Option Word
  decoder : Option DecoderPorts
  alu : Option AluPorts
  enables : Enables
  diag : Option Report
  done : Bool
deriving DecidableEq, Repr

/-- CHECK (42_sequencer_and_host.md R159): the reasons to end the run before a step, in the order of R143. -/
def checkPhase (s : State) (f : FetchPorts) (rdata : Option Word) : Option RunEnd :=
  if f.fetchOor then some (.outOfRange .fetch s.pc)
  else if isSentinel rdata then some .sentinel
  else if s.params.stepLimit == some s.stepCount then some .stepLimit
  else none

/-- The memory at a commit: written only under `dmem_we` (20_memory.md R78). -/
def memoryCommit (m : Memory) (dmemWe : Bool) (a : AluPorts) : Memory :=
  if dmemWe then m.write a.dmemAddr.toNat a.dmemWdata else m

/-- COMMIT (42_sequencer_and_host.md R159): every write of the step at once (10_state.md R44), on a state whose `IR` is
latched. -/
def commitPhase (s : State) (d : DecoderPorts) (a : AluPorts) (en : Enables) : State :=
  { s with
    pc := programCounter s.pc en.pcSel a.pcTarget en.commit
    regs := registerCommit s.regs en.we d.reg1 a.rfWdata en.commit
    mem := memoryCommit s.mem en.dmemWe a
    reports := if en.diagValid then s.reports ++ [{ pc := s.pc, word := s.ir }] else s.reports
    stepCount := if en.commit then s.stepCount + 1 else s.stepCount }

/-- The end of a run, when there is a reason for it (42_sequencer_and_host.md R145). -/
def endPhase (s : State) (o : Option RunEnd) : State :=
  match o with
  | none => s
  | some e => s.stop e

/-- FETCH, DECODE and COMMIT of one step on the word `w` (42_sequencer_and_host.md R159). -/
def stepPhases (s : State) (f : FetchPorts) (w : Word) : State × Signals :=
  let t := s.latchIr w
  let d := instructionDecoder t.ir
  let a := aluDatapath t.params d (registerRead t.regs d.reg1) (registerRead t.regs d.reg2)
  let fault := stepFault d a
  let en := commitEnables d fault.isSome
  let o := if en.haltSignal then some .haltOpcode else fault
  (endPhase (commitPhase t d a en) o,
   { fetch := f, imemRdata := some w, decoder := some d, alu := some a, enables := en,
     diag := if en.diagValid then some { pc := t.pc, word := t.ir } else none, done := o.isSome })

/-- One iteration of the CORE as its blocks make it (42_sequencer_and_host.md R159): the state after it, and what the ports
carried. Outside a run nothing is fetched and nothing changes (60_exceptions.md R201). -/
def blockCycle (s : State) : State × Signals :=
  let f := fetchUnit s.params.memWords s.pc (s.runState == .running)
  let rdata := memoryReadPort s.mem f
  let quiet : Signals :=
    { fetch := f, imemRdata := rdata, decoder := none, alu := none, enables := idleEnables, diag := none, done := false }
  match s.runState with
  | .running =>
    match checkPhase s f rdata, rdata with
    | some o, _ => (s.stop o, { quiet with done := true })
    | none, some w => stepPhases s f w
    | none, none => (s, quiet)
  | .idle => (s, quiet)
  | .halted => (s, quiet)
  | .stopped => (s, quiet)

/-- The `start` input at the blocks (10_state.md R49, 42_sequencer_and_host.md R142): the program_counter is cleared, the
sequencer's registers take the values of a new run. -/
def blockStart (s : State) : State :=
  { s with
    pc := programCounter s.pc { clear := true, inc := false, load := false } 0 true
    runState := .running, cause := .none, faultInfo := 0, stepCount := 0, reports := [] }

end Sys2Proof.Machine
end

