-- ==== Sys2Proof/Safety.lean ====
section
/-! DEFINITION. What a state of the machine satisfies between two steps, and which states the machine and its host reach. -/

namespace Sys2Proof.Machine

/-- Every register value is in `0 .. 2^W - 1` (10_state.md R21, 40_data_ops.md R105). -/
def State.regsBounded (s : State) : Prop := ∀ r : Reg, (s.x r).toNat < 2 ^ regBits s.params.regWidth

/-- `pc` is at most `N`, or at most 256 after a JUMP (10_state.md R30). -/
def State.pcBounded (s : State) : Prop := s.pc.toNat ≤ max s.params.memWords 256

/-- Memory is in canonical form and lists no cell outside `RAM[0..N-1]` (20_memory.md R60). -/
def State.memOk (s : State) : Prop := s.mem.wf = true ∧ s.mem.within s.params.memWords = true

/-- `STATE`, `CAUSE` and `FAULT_INFO` agree as 10_state.md R36, R37, R38 say. -/
def State.statusOk (s : State) : Prop :=
  match s.cause with
  | .none => (s.runState = .idle ∨ s.runState = .running) ∧ s.faultInfo = 0
  | .haltOpcode => s.runState = .halted ∧ s.faultInfo = 0
  | .sentinel => s.runState = .halted ∧ s.faultInfo = 0
  | .oorFetch => s.runState = .stopped ∧ s.faultInfo = s.pc ∧ s.params.memWords ≤ s.pc.toNat
  | .oorReg1 => s.runState = .stopped ∧ 8 ≤ s.faultInfo.toNat ∧ s.faultInfo.toNat ≤ 15
  | .oorReg2 => s.runState = .stopped ∧ 8 ≤ s.faultInfo.toNat ∧ s.faultInfo.toNat ≤ 15
  | .oorData => s.runState = .stopped ∧ s.params.memWords ≤ s.faultInfo.toNat ∧ s.faultInfo.toNat ≤ 255
  | .stepLimit => s.runState = .stopped ∧ s.faultInfo = 0 ∧ s.params.stepLimit = some s.stepCount

/-- `STEP_COUNT` is at most `STEP_LIMIT` when that is set (10_state.md R39). -/
def State.countOk (s : State) : Prop := ∀ l, s.params.stepLimit = some l → s.stepCount.toNat ≤ l.toNat

/-- What holds at every step boundary. -/
structure State.Inv (s : State) : Prop where
  params : s.params.ok = true
  regs : s.regsBounded
  pc : s.pcBounded
  mem : s.memOk
  status : s.statusOk
  count : s.countOk

/-- The states an instance with parameters `p` reaches by steps and host commands after power-on reset. -/
inductive Reachable (p : Params) : State → Prop where
  | powerOn : Reachable p (State.powerOn p)
  | step {s t : State} : Reachable p s → step s = .next t → Reachable p t
  | host {s t : State} {c : HostCommand} {r : HostReply} :
      Reachable p s → hostCommand c s = .next (t, r) → Reachable p t

/-- The iteration at `s` fetches the word `w`: a run is in progress, the parameters are admitted, `pc` is in range. -/
structure State.Fetches (s : State) (w : Word) : Prop where
  params : s.params.ok = true
  running : s.runState = .running
  inRange : s.pc.toNat < s.params.memWords
  word : s.peek s.pc.toNat = w

/-- The iteration at `s` executes a step on the word `w` (42_sequencer_and_host.md R143): it is fetched, it is not the
sentinel, and the step limit is not reached. -/
structure State.Executes (s : State) (w : Word) : Prop where
  fetches : s.Fetches w
  notSentinel : w ≠ sentinelWord
  belowLimit : s.params.stepLimit ≠ some s.stepCount

/-- The step on the word `w` faults in a memory of `n` cells (42_sequencer_and_host.md R160, by the conditions of
60_exceptions.md R185, R186, R187): a register field that the opcode uses is above 7, or a STORE's address is not below `n`. -/
def StepFaults (n : Nat) (w : Word) : Prop :=
  (1 ≤ w.toNat / 4096 ∧ w.toNat / 4096 ≤ 3 ∧ 8 ≤ w.toNat / 256 % 16) ∨
  (w.toNat / 4096 = 2 ∧ 8 ≤ w.toNat / 16 % 16) ∨
  (w.toNat / 4096 = 3 ∧ n ≤ w.toNat % 256)

/-- `n` steps, stopping at the first fault or refusal. -/
def runSteps (n : Nat) (s : State) : Result State :=
  match n with
  | 0 => .next s
  | k + 1 =>
    match step s with
    | .next t => runSteps k t
    | .fault r => .fault r
    | .refused r => .refused r

/-- The parts of an image stream (42_sequencer_and_host.md R151): whitespace `lead`, tokens each with whitespace after it, and a
`last` token with none after it, empty when there is no such token. -/
structure ImageForm (lead : List Char) (ts : List (List Char × List Char)) (last : List Char) : Prop where
  lead : ∀ c ∈ lead, isImageSpace c = true
  token : ∀ p ∈ ts, p.1 ≠ [] ∧ ∀ c ∈ p.1, isImageSpace c = false
  gap : ∀ p ∈ ts, p.2 ≠ [] ∧ ∀ c ∈ p.2, isImageSpace c = true
  last : ∀ c ∈ last, isImageSpace c = false

/-- The same state in an instance with another register width. -/
def State.withWidth (w : RegWidth) (s : State) : State := { s with params := { s.params with regWidth := w } }

/-- The iteration at `s` executes an ADD of two registers whose exact sum is at least `2^13` (40_data_ops.md R106). -/
def State.AddReaches13 (s : State) : Prop :=
  ∃ w d r, s.Executes w ∧ opcodeOf w = 0x2#4 ∧ reg1Of w = Reg.field d ∧ reg2Of w = Reg.field r ∧
    2 ^ 13 ≤ (s.x d).toNat + (s.x r).toNat

/-- An answer with its state, where it has one, seen through `f`. -/
def mapNext (f : State → State) (o : Result State) : Result State :=
  match o with
  | .next t => .next (f t)
  | .fault r => .fault r
  | .refused r => .refused r

end Sys2Proof.Machine
end

