-- ==== Sys2Proof/Certificates/Slice0/Obligations.lean ====
section
/-! DEFINITION. The statements for the provers. Each docstring names the rule of spec/ it formalises, or says what it rests on. -/

open Sys2Proof Sys2Proof.Machine

/-! ### Encoding -/

/-- Every well-formed instruction is read back from its word, with every operand (30_encoding.md R83, R88, R90). -/
def Obligations.DecodeReadsBackEncode : Prop :=
  ∀ i : Instr, i.wellFormed = true → decode (encode i) = i

/-- Every word is the word of the well-formed instruction it decodes to, so decoding is total and no two words share an
instruction (30_encoding.md R83, R92). -/
def Obligations.EncodeReadsBackDecode : Prop :=
  ∀ w : Word, encode (decode w) = w ∧ (decode w).wellFormed = true

/-- R92: the decoder's six classes partition the words by opcode, and the sentinel test stands before decoding: an iteration
that reads 0xFFFF runs no step. -/
def Obligations.EveryWordHasOneClass : Prop :=
  (∀ w : Word,
    ((instructionDecoder w).opLoad = true ↔ w.toNat / 4096 = 1) ∧
    ((instructionDecoder w).opAdd = true ↔ w.toNat / 4096 = 2) ∧
    ((instructionDecoder w).opStore = true ↔ w.toNat / 4096 = 3) ∧
    ((instructionDecoder w).opJump = true ↔ w.toNat / 4096 = 4) ∧
    ((instructionDecoder w).opHalt = true ↔ w.toNat / 4096 = 15) ∧
    ((instructionDecoder w).opUnknown = true ↔ w.toNat / 4096 = 0 ∨ (5 ≤ w.toNat / 4096 ∧ w.toNat / 4096 ≤ 14))) ∧
  (∀ s : State, s.Fetches sentinelWord →
    step s = .next { s with runState := .halted, cause := .sentinel, faultInfo := 0 })

/-- Six words of the spec's tables decode to the instructions the spec names (95_test_vectors.md, Decode). The word 0xFFFF has
the decoder's class HALT there and the run loop never decodes it; that the model's `decode` answers END for it is the
model's choice (log 10). -/
def Obligations.SpecWordsDecodeAsListed : Prop :=
  decode 0x1234#16 = .load 2#4 0x34#8 ∧ decode 0x2A5C#16 = .add 10#4 5#4 0xC#4 ∧ decode 0x3F12#16 = .store 15#4 0x12#8 ∧
  decode 0x4F07#16 = .jump 15#4 0x07#8 ∧ decode 0xF123#16 = .halt 0x123#12 ∧ decode 0x8000#16 = .reserved8 0#12 ∧
  (instructionDecoder 0xFFFF#16).opHalt = true ∧ decode 0xFFFF#16 = .endOfProgram

/-- Words that differ only in ignored bits have one meaning, whatever the state: ADD bits 3-0, JUMP bits 11-8, HALT bits 11-0
and all 12 low bits of a reserved opcode (30_encoding.md R87). The word a report holds is `IR`, which is part of the state. -/
def Obligations.IgnoredBitsHaveNoEffect : Prop :=
  ∀ (s : State) (v w : Word), v ≠ sentinelWord → w ≠ sentinelWord → opcodeOf v = opcodeOf w →
    (opcodeOf v = 0x2#4 → reg1Of v = reg1Of w → reg2Of v = reg2Of w → exec (decode v) s = exec (decode w) s) ∧
    (opcodeOf v = 0x4#4 → valueOf v = valueOf w → exec (decode v) s = exec (decode w) s) ∧
    (opcodeOf v ≠ 0x1#4 → opcodeOf v ≠ 0x2#4 → opcodeOf v ≠ 0x3#4 → opcodeOf v ≠ 0x4#4 →
      exec (decode v) s = exec (decode w) s)

/-- The assembler's words are the encoder's, with 0 in every ignored bit, for every operand in range; a register above 7 or a
number above 255 is refused (30_encoding.md R93). `.word` places its 16-bit value unchanged and `END` the sentinel (R94). -/
def Obligations.AssemblerAgreesWithEncoder : Prop :=
  (∀ d imm : Nat, d ≤ 7 → imm ≤ 255 →
    assemble (.load d imm) = some (encode (.load (BitVec.ofNat 4 d) (BitVec.ofNat 8 imm))) ∧
    assemble (.store d imm) = some (encode (.store (BitVec.ofNat 4 d) (BitVec.ofNat 8 imm))) ∧
    assemble (.jump imm) = some (encode (.jump 0#4 (BitVec.ofNat 8 imm)))) ∧
  (∀ d r : Nat, d ≤ 7 → r ≤ 7 →
    assemble (.add d r) = some (encode (.add (BitVec.ofNat 4 d) (BitVec.ofNat 4 r) 0#4))) ∧
  assemble .halt = some (encode (.halt 0#12)) ∧ assemble .endMark = some (encode .endOfProgram) ∧
  (∀ d imm : Nat, 7 < d ∨ 255 < imm → assemble (.load d imm) = none ∧ assemble (.store d imm) = none) ∧
  (∀ d r : Nat, 7 < d ∨ 7 < r → assemble (.add d r) = none) ∧
  (∀ imm : Nat, 255 < imm → assemble (.jump imm) = none) ∧
  (∀ w : Word, assemble (.word w.toNat) = some w)

/-! ### The instructions: result, frame and completion -/

/-- R101: LOAD writes `zext_W(value)` to the register and goes on; no other register, no memory, no status changes. With
`reg1` 8 to 15 it raises OutOfRange(REG1) and writes nothing. The words of opcode 0x1 are the LOADs. -/
def Obligations.LoadWritesZeroExtendedImmediate : Prop :=
  (∀ (s : State) (d : Reg) (value : BitVec 8), ∃ t, exec (.load d.field value) s = .next t ∧
    t.x d = value.setWidth 16 ∧ (∀ q, q ≠ d → t.x q = s.x q) ∧
    t = { s with regs := t.regs, pc := s.pc + 1, stepCount := s.stepCount + 1 }) ∧
  (∀ (s : State) (reg1 : BitVec 4) (value : BitVec 8), 8 ≤ reg1.toNat →
    exec (.load reg1 value) s =
      .next { s with runState := .stopped, cause := .oorReg1, faultInfo := reg1.setWidth 16 }) ∧
  (∀ w : Word, w.toNat / 4096 = 1 →
    decode w = .load (BitVec.ofNat 4 (w.toNat / 256)) (BitVec.ofNat 8 w.toNat))

/-- R102: ADD writes the exact sum modulo `2^W` and goes on; both reads see the old values; no other register, no memory, no
status changes. The `reg1` check is before the `reg2` check; nothing is written when one fails. The words of opcode 0x2 are
the ADDs. -/
def Obligations.AddWritesSumModuloWidth : Prop :=
  (∀ (s : State) (d r : Reg) (ignored : BitVec 4), ∃ t, exec (.add d.field r.field ignored) s = .next t ∧
    (t.x d).toNat = ((s.x d).toNat + (s.x r).toNat) % 2 ^ regBits s.params.regWidth ∧
    (∀ q, q ≠ d → t.x q = s.x q) ∧
    t = { s with regs := t.regs, pc := s.pc + 1, stepCount := s.stepCount + 1 }) ∧
  (∀ (s : State) (reg1 reg2 ignored : BitVec 4), 8 ≤ reg1.toNat →
    exec (.add reg1 reg2 ignored) s =
      .next { s with runState := .stopped, cause := .oorReg1, faultInfo := reg1.setWidth 16 }) ∧
  (∀ (s : State) (d : Reg) (reg2 ignored : BitVec 4), 8 ≤ reg2.toNat →
    exec (.add d.field reg2 ignored) s =
      .next { s with runState := .stopped, cause := .oorReg2, faultInfo := reg2.setWidth 16 }) ∧
  (∀ w : Word, w.toNat / 4096 = 2 →
    decode w = .add (BitVec.ofNat 4 (w.toNat / 256)) (BitVec.ofNat 4 (w.toNat / 16)) (BitVec.ofNat 4 w.toNat))

/-- R103: STORE writes the register to the cell at `zext_16(value)` and goes on; every other cell, every register and the
status are unchanged. The `reg1` check is before the address check; nothing is written when one fails. The words of opcode
0x3 are the STOREs. The canonical form of memory is the model's invariant (Obligations.StepKeepsInvariant). -/
def Obligations.StoreWritesOneCell : Prop :=
  (∀ (s : State) (r : Reg) (value : BitVec 8), s.mem.wf = true → (absAddr value).toNat < s.params.memWords →
    ∃ t, exec (.store r.field value) s = .next t ∧
      t.peek (absAddr value).toNat = s.x r ∧ (∀ a, a ≠ (absAddr value).toNat → t.peek a = s.peek a) ∧
      t = { s with mem := t.mem, pc := s.pc + 1, stepCount := s.stepCount + 1 }) ∧
  (∀ (s : State) (reg1 : BitVec 4) (value : BitVec 8), 8 ≤ reg1.toNat →
    exec (.store reg1 value) s =
      .next { s with runState := .stopped, cause := .oorReg1, faultInfo := reg1.setWidth 16 }) ∧
  (∀ (s : State) (r : Reg) (value : BitVec 8), s.params.memWords ≤ (absAddr value).toNat →
    exec (.store r.field value) s =
      .next { s with runState := .stopped, cause := .oorData, faultInfo := absAddr value }) ∧
  (∀ w : Word, w.toNat / 4096 = 3 →
    decode w = .store (BitVec.ofNat 4 (w.toNat / 256)) (BitVec.ofNat 8 w.toNat))

/-- R120 and R121: JUMP sets `pc` to `zext_16(value)`, or to that plus one under `JUMP_COMPAT`; nothing else changes but the
step count. The words of opcode 0x4 are the JUMPs. -/
def Obligations.JumpSetsProgramCounter : Prop :=
  (∀ (s : State) (ignored : BitVec 4) (value : BitVec 8), s.params.jumpCompat = false →
    exec (.jump ignored value) s = .next { s with pc := value.setWidth 16, stepCount := s.stepCount + 1 }) ∧
  (∀ (s : State) (ignored : BitVec 4) (value : BitVec 8), s.params.jumpCompat = true →
    ∃ t, exec (.jump ignored value) s = .next t ∧ t.pc.toNat = value.toNat + 1 ∧
      t = { s with pc := t.pc, stepCount := s.stepCount + 1 }) ∧
  (∀ w : Word, w.toNat / 4096 = 4 →
    decode w = .jump (BitVec.ofNat 4 (w.toNat / 256)) (BitVec.ofNat 8 w.toNat))

/-- R122: HALT ends the run with `Halted(HALT_OPCODE)`; `pc`, registers and memory are unchanged; the step is counted. Any word
0xF000 to 0xFFFE that is executed is a HALT. -/
def Obligations.HaltEndsTheRun : Prop :=
  (∀ (s : State) (ignored : BitVec 12), exec (.halt ignored) s =
    .next { s with runState := .halted, cause := .haltOpcode, faultInfo := 0, stepCount := s.stepCount + 1 }) ∧
  (∀ (s : State) (w : Word), s.Executes w → 0xF000 ≤ w.toNat →
    step s = .next { s with ir := w, runState := .halted, cause := .haltOpcode, faultInfo := 0,
                            stepCount := s.stepCount + 1 })

/-- R123: a reserved opcode reports `UnknownOpcode(pc, IR)` and goes on; registers, memory and status are unchanged: each of the
eleven as an instruction, and every executed word with opcode 0x0 or 0x5 to 0xE, whose report holds that word. -/
def Obligations.ReservedOpcodesReportAndGoOn : Prop :=
  (∀ (s : State) (low : BitVec 12) (i : Instr),
    i ∈ [Instr.reserved0 low, .reserved5 low, .reserved6 low, .reserved7 low, .reserved8 low, .reserved9 low,
      .reservedA low, .reservedB low, .reservedC low, .reservedD low, .reservedE low] →
    exec i s = .next { s with reports := s.reports ++ [{ pc := s.pc, word := s.ir }], pc := s.pc + 1,
                              stepCount := s.stepCount + 1 }) ∧
  (∀ (s : State) (w : Word), s.Executes w →
    (w.toNat / 4096 = 0 ∨ (5 ≤ w.toNat / 4096 ∧ w.toNat / 4096 ≤ 14)) →
    step s = .next { s with ir := w, reports := s.reports ++ [{ pc := s.pc, word := w }], pc := s.pc + 1,
                            stepCount := s.stepCount + 1 })

/-- R124: the sentinel ends the run with `Halted(SENTINEL)` before the fetch: no step is counted, `pc`, registers and memory are
unchanged. As an instruction of the syntax it has that effect on every state. -/
def Obligations.SentinelEndsTheRunWithoutAStep : Prop :=
  (∀ s : State, exec .endOfProgram s = .next { s with runState := .halted, cause := .sentinel, faultInfo := 0 }) ∧
  (∀ s : State, s.Fetches sentinelWord →
    step s = .next { s with runState := .halted, cause := .sentinel, faultInfo := 0 })

/-! ### The run loop -/

/-- When the word at `pc` is executed, the step is the meaning of the instruction it decodes to, on the state with `IR`
latched; when it is the sentinel, the step is the meaning of END (42_sequencer_and_host.md R143, R144). -/
def Obligations.StepRunsTheDecodedInstruction : Prop :=
  (∀ (s : State) (w : Word), s.Executes w → step s = exec (decode w) (s.latchIr w) ∧ (decode w).wellFormed = true) ∧
  (∀ s : State, s.Fetches sentinelWord → step s = exec .endOfProgram s)

/-- R192: the checks of one iteration in their order, and the first that applies is the only one taken. With it R185, R186 and
R189: what OutOfRange(REG1), OutOfRange(REG2) and StepLimit leave. What `IR` holds after a raised OutOfRange is not said. -/
def Obligations.FirstFailingCheckEndsTheRun : Prop :=
  ∀ (s : State) (w : Word), s.params.ok = true → s.runState = .running → w = s.peek s.pc.toNat →
    ∃ t, step s = .next t ∧
      (s.params.memWords ≤ s.pc.toNat →
        t = { s with runState := .stopped, cause := .oorFetch, faultInfo := s.pc }) ∧
      (s.pc.toNat < s.params.memWords → w = sentinelWord →
        t = { s with runState := .halted, cause := .sentinel, faultInfo := 0 }) ∧
      (s.pc.toNat < s.params.memWords → w ≠ sentinelWord → s.params.stepLimit = some s.stepCount →
        t = { s with runState := .stopped, cause := .stepLimit, faultInfo := 0 }) ∧
      (s.pc.toNat < s.params.memWords → w ≠ sentinelWord → s.params.stepLimit ≠ some s.stepCount →
        (1 ≤ w.toNat / 4096 ∧ w.toNat / 4096 ≤ 3 → 8 ≤ w.toNat / 256 % 16 →
          t = { s with ir := t.ir, runState := .stopped, cause := .oorReg1,
                       faultInfo := BitVec.ofNat 16 (w.toNat / 256 % 16) }) ∧
        (w.toNat / 4096 = 2 → w.toNat / 256 % 16 < 8 → 8 ≤ w.toNat / 16 % 16 →
          t = { s with ir := t.ir, runState := .stopped, cause := .oorReg2,
                       faultInfo := BitVec.ofNat 16 (w.toNat / 16 % 16) }) ∧
        (w.toNat / 4096 = 3 → w.toNat / 256 % 16 < 8 → s.params.memWords ≤ w.toNat % 256 →
          t = { s with ir := t.ir, runState := .stopped, cause := .oorData,
                       faultInfo := BitVec.ofNat 16 (w.toNat % 256) }) ∧
        ((1 ≤ w.toNat / 4096 ∧ w.toNat / 4096 ≤ 3 → w.toNat / 256 % 16 < 8) →
          (w.toNat / 4096 = 2 → w.toNat / 16 % 16 < 8) →
          (w.toNat / 4096 = 3 → w.toNat % 256 < s.params.memWords) → t.runState ≠ .stopped))

/-- R184: OutOfRange(FETCH) at the start of an iteration with `pc >= N`, before any memory read; and how `pc` can come to be at
or above `N` in a run: from address `N - 1`, or by a JUMP when `N <= 256`. -/
def Obligations.FetchPastTheEndEndsTheRun : Prop :=
  (∀ s : State, s.params.ok = true → s.runState = .running → s.params.memWords ≤ s.pc.toNat →
    step s = .next { s with runState := .stopped, cause := .oorFetch, faultInfo := s.pc }) ∧
  (∀ (s t : State) (w : Word), s.Executes w → step s = .next t → t.runState = .running →
    s.params.memWords ≤ t.pc.toNat →
    (s.pc.toNat = s.params.memWords - 1 ∧ t.pc.toNat = s.params.memWords) ∨
    (w.toNat / 4096 = 4 ∧ s.params.memWords ≤ 256))

/-- R187: a STORE to an address at or above `N` raises OutOfRange(DATA) with that address, after the `reg1` check; with
`N = 8192` no iteration does. What `IR` then holds is not said. -/
def Obligations.StoreAddressIsCheckedAgainstMemorySize : Prop :=
  (∀ (s : State) (w : Word), s.Executes w → w.toNat / 4096 = 3 → w.toNat / 256 % 16 < 8 →
    s.params.memWords ≤ w.toNat % 256 →
    ∃ t, step s = .next t ∧
      t = { s with ir := t.ir, runState := .stopped, cause := .oorData, faultInfo := (valueOf w).setWidth 16 }) ∧
  (∀ s t : State, s.params.memWords = 8192 → s.cause ≠ .oorData → step s = .next t → t.cause ≠ .oorData)

/-- R29: the new `pc` of every kind of step, and `pc` unchanged where no step executes or the step raises OutOfRange. -/
def Obligations.ProgramCounterFollowsItsTable : Prop :=
  (∀ (s : State) (w : Word), s.Executes w → ∃ t, step s = .next t ∧
    (t.runState = .stopped → t.pc = s.pc) ∧
    (t.runState ≠ .stopped →
      (w.toNat / 4096 ≠ 4 → w.toNat / 4096 ≠ 15 → t.pc = s.pc + 1) ∧
      (w.toNat / 4096 = 4 → s.params.jumpCompat = false → t.pc.toNat = w.toNat % 256) ∧
      (w.toNat / 4096 = 4 → s.params.jumpCompat = true → t.pc.toNat = w.toNat % 256 + 1) ∧
      (w.toNat / 4096 = 15 → t.pc = s.pc))) ∧
  (∀ s t : State, step s = .next t → (¬ ∃ w, s.Executes w) → t.pc = s.pc)

/-- `STEP_COUNT` goes up by one exactly when a step completes: not at the sentinel, not at an OutOfRange, not at the step
limit, not outside a run (10_state.md R39). -/
def Obligations.StepCountCountsCompletedSteps : Prop :=
  (∀ (s : State) (w : Word), s.Executes w → ∃ t, step s = .next t ∧
    (t.runState = .stopped → t.stepCount = s.stepCount) ∧ (t.runState ≠ .stopped → t.stepCount = s.stepCount + 1)) ∧
  (∀ s t : State, step s = .next t → (¬ ∃ w, s.Executes w) → t.stepCount = s.stepCount)

/-- Precision (60_exceptions.md R183): an iteration that stops a run with an error changes no register, memory cell, `pc`, step
count or report; it ends with the cause of R181 and the detail of R38. -/
def Obligations.ErrorsArePrecise : Prop :=
  ∀ s t : State, s.runState = .running → step s = .next t → t.runState = .stopped →
    t = { s with ir := t.ir, runState := .stopped, cause := t.cause, faultInfo := t.faultInfo } ∧
    ((t.cause = .oorFetch ∧ t.faultInfo = s.pc) ∨
     (t.cause = .oorReg1 ∧ t.faultInfo = (reg1Of (s.peek s.pc.toNat)).setWidth 16) ∨
     (t.cause = .oorReg2 ∧ t.faultInfo = (reg2Of (s.peek s.pc.toNat)).setWidth 16) ∨
     (t.cause = .oorData ∧ t.faultInfo = (valueOf (s.peek s.pc.toNat)).setWidth 16) ∨
     (t.cause = .stepLimit ∧ t.faultInfo = 0))

/-- R140: the only moves of `STATE`: reset to IDLE, `start` from a state that is not RUNNING, and the end of a run to HALTED for
`Halted` and to STOPPED for OutOfRange and StepLimit. -/
def Obligations.RunStateMovesOnlyAsListed : Prop :=
  (∀ p : Params, (State.powerOn p).runState = .idle) ∧
  (∀ s t : State, step s = .next t → s.runState ≠ .running → t.runState = s.runState) ∧
  (∀ s t : State, step s = .next t → s.runState = .running →
    t.runState = .running ∨
    (t.runState = .halted ∧ (t.outcome = some .haltOpcode ∨ t.outcome = some .sentinel)) ∨
    (t.runState = .stopped ∧ ((∃ k v, t.outcome = some (.outOfRange k v)) ∨ t.outcome = some .stepLimit))) ∧
  (∀ (s t : State) (c : HostCommand) (r : HostReply), hostCommand c s = .next (t, r) →
    (c = .start ∧ s.runState ≠ .running ∧ t.runState = .running) ∨ (c ≠ .start ∧ t.runState = s.runState))

/-- Outside a run the machine holds all its state, and only `start` makes it run again (60_exceptions.md R201). -/
def Obligations.QuietStatesHold : Prop :=
  (∀ s : State, s.params.ok = true → s.runState ≠ .running → step s = .next s) ∧
  (∀ (s t : State) (c : HostCommand) (r : HostReply), s.runState ≠ .running → c ≠ .start →
    hostCommand c s = .next (t, r) → t.runState ≠ .running)

/-- The result of a run (42_sequencer_and_host.md R146) is there exactly when a step has ended the run, and holds the outcome,
the reports, the step count and the final `pc`. -/
def Obligations.EndedRunHasItsResult : Prop :=
  ∀ s t : State, s.runState = .running → s.cause = .none → step s = .next t →
    (t.runState = .running → t.runResult = none) ∧
    (t.runState ≠ .running → ∃ o : RunEnd, t.runState = o.runState ∧ t.cause = o.cause ∧ t.faultInfo = o.info ∧
      t.runResult = some { outcome := o, reports := t.reports, steps := t.stepCount, pc := t.pc })

/-! ### Whole-machine rules -/

/-- R66: memory is written only by a STORE step, at its own address, and by `load_image`; the memory size never changes. -/
def Obligations.OnlyStoreAndLoaderWriteMemory : Prop :=
  (∀ (s t : State) (a : Nat), s.mem.wf = true → step s = .next t → t.peek a ≠ s.peek a →
    ∃ w, s.Executes w ∧ opcodeOf w = 0x3#4 ∧ a = (absAddr (valueOf w)).toNat ∧ a < s.params.memWords) ∧
  (∀ (s t : State) (c : HostCommand) (r : HostReply), hostCommand c s = .next (t, r) → t.mem ≠ s.mem →
    ∃ source, c = .loadImage source) ∧
  (∀ s t : State, step s = .next t → t.params = s.params) ∧
  (∀ (s t : State) (c : HostCommand) (r : HostReply), hostCommand c s = .next (t, r) → t.params = s.params)

/-- Registers are written only by LOAD and ADD steps, each only its own `reg1`; no host command writes one (10_state.md R23). -/
def Obligations.OnlyLoadAndAddWriteRegisters : Prop :=
  (∀ (s t : State) (r : Reg), step s = .next t → t.x r ≠ s.x r →
    ∃ w, s.Executes w ∧ (opcodeOf w = 0x1#4 ∨ opcodeOf w = 0x2#4) ∧ reg1Of w = r.field) ∧
  (∀ (s t : State) (c : HostCommand) (a : HostReply), hostCommand c s = .next (t, a) → t.regs = s.regs)

/-- `exec` answers a next state for every instruction and state, and `step` on every state of an admitted instance: the memory
primitives are never called out of range (00_scope.md R12, 20_memory.md R65), and each condition of the spec, a raised
OutOfRange among them, is a next state, which is the model's reading (log 7). Refusing a memory size that R8 forbids is the
model's choice (log 1). -/
def Obligations.ExecAndStepAnswerNextStates : Prop :=
  (∀ (i : Instr) (s : State), ∃ t, exec i s = .next t) ∧
  (∀ s : State, s.params.ok = true → ∃ t, step s = .next t) ∧
  (∀ s : State, s.params.ok = false → step s = .refused .inadmissibleParams)

/-- R76: what a STORE wrote at the next address is what the very next iteration reads, as sentinel or as instruction. -/
def Obligations.StoredWordIsFetchedNext : Prop :=
  ∀ (s : State) (w : Word) (r : Reg), s.mem.wf = true → s.Executes w → opcodeOf w = 0x3#4 → reg1Of w = r.field →
    (valueOf w).toNat = s.pc.toNat + 1 → (valueOf w).toNat < s.params.memWords →
    ∃ t, step s = .next t ∧ t.Fetches (s.x r)

/-- A JUMP to its own address, without a step limit and without `JUMP_COMPAT`, never ends: after any number of steps the run
goes on at the same address and has no result (42_sequencer_and_host.md R147, 41_control_ops.md R120). -/
def Obligations.JumpToItselfNeverEnds : Prop :=
  ∀ (s : State) (w : Word), s.Executes w → s.cause = .none → s.params.stepLimit = none → s.params.jumpCompat = false →
    opcodeOf w = 0x4#4 → (valueOf w).toNat = s.pc.toNat →
    ∀ n : Nat, ∃ t, runSteps n s = .next t ∧ t.runState = .running ∧ t.pc = s.pc ∧ t.regs = s.regs ∧ t.mem = s.mem ∧
      t.runResult = none

/-- R106: a run whose ADD steps never form an exact sum of `2^13` or more is the same for `W = 13` and `W = 16`, step for step;
and a run with such a sum may differ: there is a state from which one step gives two register values. -/
def Obligations.WidthsAgreeBelowTheSmallerModulus : Prop :=
  (∀ (n : Nat) (s : State), s.params.regWidth = .w16 →
    (∀ k t, k < n → runSteps k s = .next t → ¬ t.AddReaches13) →
    runSteps n (s.withWidth .w13) = mapNext (State.withWidth .w13) (runSteps n s)) ∧
  (∃ s t u : State, s.params.regWidth = .w16 ∧ s.AddReaches13 ∧ step s = .next t ∧
    step (s.withWidth .w13) = .next u ∧ t.x .r0 ≠ u.x .r0)

/-! ### Invariants -/

/-- Every step keeps the invariant: admitted parameters, registers below `2^W` (R105), `pc` bounded (R30), memory canonical and
inside `RAM`, status registers in agreement (R36 to R38), step count within the limit (R39). The canonical form of memory
is the model's own (log 2). -/
def Obligations.StepKeepsInvariant : Prop :=
  ∀ s t : State, s.Inv → step s = .next t → t.Inv

/-- Every host command keeps the invariant. -/
def Obligations.HostCommandsKeepInvariant : Prop :=
  ∀ (s t : State) (c : HostCommand) (r : HostReply), s.Inv → hostCommand c s = .next (t, r) → t.Inv

/-- The invariant holds right after power-on reset of every admitted instance, and so of this hardware. -/
def Obligations.PowerOnSatisfiesInvariant : Prop :=
  (∀ p : Params, p.ok = true → (State.powerOn p).Inv) ∧ State.reset.Inv

/-- R105: every register value is below `2^W` at every step boundary: at power-on, after every step and every host command; a
value above 255 is made by an ADD only. -/
def Obligations.RegisterValuesStayInRange : Prop :=
  (∀ p : Params, (State.powerOn p).regsBounded) ∧
  (∀ s t : State, s.regsBounded → step s = .next t → t.regsBounded) ∧
  (∀ (s t : State) (c : HostCommand) (r : HostReply), s.regsBounded → hostCommand c s = .next (t, r) → t.regsBounded) ∧
  (∀ (s t : State) (r : Reg), step s = .next t → t.x r ≠ s.x r → 255 < (t.x r).toNat →
    ∃ w, s.Executes w ∧ opcodeOf w = 0x2#4)

/-- Two memories in canonical form that read alike at every address are the same data. The form is the model's choice
(log 2); the memory is that of 20_memory.md. -/
def Obligations.CanonicalMemoriesReadAlikeAreEqual : Prop :=
  ∀ m m' : Memory, m.wf = true → m'.wf = true → (∀ a, m.read a = m'.read a) → m = m'

/-! ### Reset and the host port -/

/-- R210: what power-on reset leaves in every piece of state. -/
def Obligations.PowerOnResetValues : Prop :=
  ∀ p : Params, (State.powerOn p).pc = 0 ∧ (∀ r, (State.powerOn p).x r = 0) ∧ (State.powerOn p).ir = 0 ∧
    (State.powerOn p).runState = .idle ∧ (State.powerOn p).cause = .none ∧ (State.powerOn p).faultInfo = 0 ∧
    (State.powerOn p).stepCount = 0 ∧ (State.powerOn p).reports = [] ∧ (∀ a, (State.powerOn p).peek a = 0)

/-- R211: what `start` sets; registers, memory and `IR` keep their values. It is admitted in every state that is not RUNNING. -/
def Obligations.StartIsAPartialReset : Prop :=
  ∀ s : State, s.runState ≠ .running →
    hostCommand .start s =
      .next ({ s with pc := 0, runState := .running, cause := .none, faultInfo := 0, stepCount := 0, reports := [] },
        .started)

/-- R148: a run with no step at all: with the sentinel at address 0, and with `STEP_LIMIT = 0` and another word there; the first
iteration never raises OutOfRange(FETCH) in an admitted instance. -/
def Obligations.RunsWithoutAStep : Prop :=
  (∀ s : State, s.params.ok = true → s.peek 0 = sentinelWord →
    step s.startRun = .next { s.startRun with runState := .halted, cause := .sentinel }) ∧
  (∀ s : State, s.params.ok = true → s.peek 0 ≠ sentinelWord → s.params.stepLimit = some 0 →
    step s.startRun = .next { s.startRun with runState := .stopped, cause := .stepLimit }) ∧
  (∀ s t : State, s.params.ok = true → step s.startRun = .next t → t.cause ≠ .oorFetch)

/-- R158: while a run is in progress no host command but `read_status` is admitted. -/
def Obligations.HostHasNoMoveDuringARun : Prop :=
  ∀ (s : State) (c : HostCommand), s.runState = .running →
    (c ≠ .readStatus → hostCommand c s = .refused .hostCommandDuringRun) ∧
    (c = .readStatus → hostCommand c s =
      .next (s, .status { status := s.status, faultInfo := s.faultInfo, stepCount := s.stepCount, pc := s.pc }))

/-- R150: a stream of well-formed tokens that fits the memory is written to consecutive addresses from 0; every cell past it and
everything else in the machine keeps its value. -/
def Obligations.LoadImageWritesItsTokens : Prop :=
  ∀ (s : State) (cs : List Char) (ws : List Word), s.runState ≠ .running → s.mem.wf = true →
    (imageTokens cs).map parseToken = ws.map some → ws.length ≤ s.params.memWords →
    ∃ t, hostCommand (.loadImage (some cs)) s = .next (t, .loaded) ∧
      (∀ i, (h : i < ws.length) → t.peek i = ws[i]) ∧ (∀ i, ws.length ≤ i → t.peek i = s.peek i) ∧
      t = { s with mem := t.mem }

/-- R152 and R190: the load errors, each leaving the whole state unchanged: an unreadable source, the first malformed token,
more than `N` tokens. Where the last two meet, which of them is answered is left open (log 8). -/
def Obligations.FailedLoadChangesNothing : Prop :=
  ∀ s : State, s.runState ≠ .running →
    hostCommand (.loadImage none) s = .next (s, .loadFailed .loadError) ∧
    (∀ (cs : List Char) (before after : List (List Char)) (bad : List Char),
      imageTokens cs = before ++ bad :: after → (∀ x ∈ before, parseToken x ≠ none) → parseToken bad = none →
      ((imageTokens cs).length ≤ s.params.memWords →
        hostCommand (.loadImage (some cs)) s = .next (s, .loadFailed (.parseError before.length bad))) ∧
      (s.params.memWords < (imageTokens cs).length →
        hostCommand (.loadImage (some cs)) s = .next (s, .loadFailed (.parseError before.length bad)) ∨
        hostCommand (.loadImage (some cs)) s = .next (s, .loadFailed (.imageTooLarge (imageTokens cs).length)))) ∧
    (∀ cs : List Char, (∀ x ∈ imageTokens cs, parseToken x ≠ none) → s.params.memWords < (imageTokens cs).length →
      hostCommand (.loadImage (some cs)) s = .next (s, .loadFailed (.imageTooLarge (imageTokens cs).length)))

/-- Which tokens are words and which word each is (42_sequencer_and_host.md R151): the digits `0-9`, `a-f`, `A-F` and their values;
the optional prefix `0x` or `0X`; one to four digits after it; the value of the digits, the first the most significant. -/
def Obligations.TokensAreOneToFourHexDigits : Prop :=
  (∀ (c : Char) (n : Nat), hexDigit c = some n ↔ (c, n) ∈
    [('0', 0), ('1', 1), ('2', 2), ('3', 3), ('4', 4), ('5', 5), ('6', 6), ('7', 7), ('8', 8), ('9', 9),
     ('a', 10), ('b', 11), ('c', 12), ('d', 13), ('e', 14), ('f', 15),
     ('A', 10), ('B', 11), ('C', 12), ('D', 13), ('E', 14), ('F', 15)]) ∧
  (∀ t : List Char, (parseToken t).isSome = true ↔
    (1 ≤ (dropHexPrefix t).length ∧ (dropHexPrefix t).length ≤ 4 ∧
      ∀ c ∈ dropHexPrefix t, (hexDigit c).isSome = true)) ∧
  (∀ ds : List Char, dropHexPrefix ('0' :: 'x' :: ds) = ds ∧ dropHexPrefix ('0' :: 'X' :: ds) = ds) ∧
  (∀ t : List Char, (∀ ds, t ≠ '0' :: 'x' :: ds ∧ t ≠ '0' :: 'X' :: ds) → dropHexPrefix t = t) ∧
  (∀ ps : List (Char × Nat), (∀ p ∈ ps, hexDigit p.1 = some p.2) → 1 ≤ ps.length → ps.length ≤ 4 →
    ps.foldl (fun n p => n * 16 + p.2) 0 < 2 ^ 16 ∧
    parseToken (ps.map Prod.fst) = some (BitVec.ofNat 16 (ps.foldl (fun n p => n * 16 + p.2) 0)) ∧
    parseToken ('0' :: 'x' :: ps.map Prod.fst) = parseToken (ps.map Prod.fst) ∧
    parseToken ('0' :: 'X' :: ps.map Prod.fst) = parseToken (ps.map Prod.fst)) ∧
  (∀ (a b c d : Char) (i j k l : Nat), hexDigit a = some i → hexDigit b = some j → hexDigit c = some k →
    hexDigit d = some l →
    parseToken [a, b, c, d] = some (BitVec.ofNat 16 (i * 4096 + j * 256 + k * 16 + l)))

/-- The tokens of a stream (42_sequencer_and_host.md R151): the four whitespace characters; the stream that has any whitespace
first, then tokens each with one or more whitespace characters after it, mixed as they may be, then perhaps a last token
with none after it, is read as those tokens; and every stream has that form. -/
def Obligations.SeparatedTokensAreReadBack : Prop :=
  (∀ c : Char, isImageSpace c = true ↔ c ∈ [' ', '\t', '\r', '\n']) ∧
  (∀ (lead : List Char) (ts : List (List Char × List Char)) (last : List Char), ImageForm lead ts last →
    imageTokens (lead ++ (ts.flatMap fun p => p.1 ++ p.2) ++ last) =
      ts.map Prod.fst ++ if last = [] then [] else [last]) ∧
  (∀ cs : List Char, ∃ lead ts last, ImageForm lead ts last ∧ cs = lead ++ (ts.flatMap fun p => p.1 ++ p.2) ++ last)

/-- R154, R155, R156: the three reads of the host: eight register values, a range of memory or OutOfRange without words, the
status values; none changes the state. The first two are admitted only when no run is in progress, the third always. -/
def Obligations.HostReadsReturnTheState : Prop :=
  (∀ s : State, s.runState ≠ .running → hostCommand .dumpRegisters s =
    .next (s, .registers [s.x .r0, s.x .r1, s.x .r2, s.x .r3, s.x .r4, s.x .r5, s.x .r6, s.x .r7])) ∧
  (∀ (s : State) (lo count : Nat), s.runState ≠ .running → lo + count ≤ s.params.memWords →
    ∃ ws : List Word, hostCommand (.dumpMemory lo count) s = .next (s, .words ws) ∧ ws.length = count ∧
      ∀ i, (h : i < ws.length) → ws[i] = s.peek (lo + i)) ∧
  (∀ (s : State) (lo count : Nat), s.runState ≠ .running → s.params.memWords < lo + count →
    hostCommand (.dumpMemory lo count) s = .next (s, .rangeOutOfRange)) ∧
  (∀ (s : State) (lo count : Nat), s.runState = .running →
    hostCommand .dumpRegisters s = .refused .hostCommandDuringRun ∧
    hostCommand (.dumpMemory lo count) s = .refused .hostCommandDuringRun) ∧
  (∀ s : State, hostCommand .readStatus s =
    .next (s, .status { status := s.status, faultInfo := s.faultInfo, stepCount := s.stepCount, pc := s.pc }))

/-- R40: the places of `STATE` and `CAUSE` in `STATUS`, bits 15 to 5 reading as 0, with the codes of R36 and R37; the host
reads it beside `FAULT_INFO`, `STEP_COUNT` and `pc`, at any time. -/
def Obligations.StatusWordLayout : Prop :=
  (∀ s : State, s.status.extractLsb' 0 2 = s.runState.code ∧ s.status.extractLsb' 2 3 = s.cause.code ∧
    s.status.extractLsb' 5 11 = 0) ∧
  (∀ s : State, hostCommand .readStatus s =
    .next (s, .status { status := s.status, faultInfo := s.faultInfo, stepCount := s.stepCount, pc := s.pc })) ∧
  RunState.idle.code = 0 ∧ RunState.running.code = 1 ∧ RunState.halted.code = 2 ∧ RunState.stopped.code = 3 ∧
  Cause.none.code = 0 ∧ Cause.haltOpcode.code = 1 ∧ Cause.sentinel.code = 2 ∧ Cause.oorFetch.code = 3 ∧
  Cause.oorReg1.code = 4 ∧ Cause.oorReg2.code = 5 ∧ Cause.oorData.code = 6 ∧ Cause.stepLimit.code = 7

/-! ### The block-level machine -/

/-- The six blocks, connected as 10_state.md R42 to R49 and 42_sequencer_and_host.md R159, R160 say, make the same iteration as
the run loop over the instructions' meanings, and the same `start`. -/
def Obligations.BlocksMakeTheSameIteration : Prop :=
  (∀ s : State, s.params.ok = true → step s = .next (blockCycle s).1) ∧ (∀ s : State, blockStart s = s.startRun)

/-- R160: the commit enables of each class when the step does not fault, every enable 0 when it does, and when a step faults.
An iteration that executes a word drives them so: by the fault condition on the word it ends the run with OutOfRange, or
it ends it for HALT only. -/
def Obligations.CommitEnablesFollowTheTable : Prop :=
  (∀ (p : Params) (w ra rb : Word),
    ((stepFault (instructionDecoder w) (aluDatapath p (instructionDecoder w) ra rb)).isSome = true ↔
      ((instructionDecoder w).useReg1 = true ∧ (instructionDecoder w).reg1Oor = true) ∨
      ((instructionDecoder w).useReg2 = true ∧ (instructionDecoder w).reg2Oor = true) ∨
      (aluDatapath p (instructionDecoder w) ra rb).dataOor = true) ∧
    commitEnables (instructionDecoder w) true = idleEnables ∧
    ((instructionDecoder w).opLoad = true →
      (aluDatapath p (instructionDecoder w) ra rb).rfWdata = some ((valueOf w).setWidth 16) ∧
      commitEnables (instructionDecoder w) false =
        { commit := true, pcSel := { clear := false, inc := true, load := false }, we := true, dmemWe := false,
          diagValid := false, haltSignal := false }) ∧
    ((instructionDecoder w).opAdd = true →
      (aluDatapath p (instructionDecoder w) ra rb).rfWdata = some (addWrap p.regWidth ra rb) ∧
      commitEnables (instructionDecoder w) false =
        { commit := true, pcSel := { clear := false, inc := true, load := false }, we := true, dmemWe := false,
          diagValid := false, haltSignal := false }) ∧
    ((instructionDecoder w).opStore = true → commitEnables (instructionDecoder w) false =
      { commit := true, pcSel := { clear := false, inc := true, load := false }, we := false, dmemWe := true,
        diagValid := false, haltSignal := false }) ∧
    ((instructionDecoder w).opJump = true → commitEnables (instructionDecoder w) false =
      { commit := true, pcSel := { clear := false, inc := false, load := true }, we := false, dmemWe := false,
        diagValid := false, haltSignal := false }) ∧
    ((instructionDecoder w).opHalt = true → commitEnables (instructionDecoder w) false =
      { commit := true, pcSel := { clear := false, inc := false, load := false }, we := false, dmemWe := false,
        diagValid := false, haltSignal := true }) ∧
    ((instructionDecoder w).opUnknown = true → commitEnables (instructionDecoder w) false =
      { commit := true, pcSel := { clear := false, inc := true, load := false }, we := false, dmemWe := false,
        diagValid := true, haltSignal := false })) ∧
  (∀ (s : State) (w : Word), s.Executes w → StepFaults s.params.memWords w →
    (blockCycle s).2.enables = idleEnables ∧ (blockCycle s).1.runState = .stopped ∧
    ∃ k v, (blockCycle s).1.outcome = some (.outOfRange k v)) ∧
  (∀ (s : State) (w : Word), s.Executes w → ¬ StepFaults s.params.memWords w →
    (blockCycle s).2.enables = commitEnables (instructionDecoder w) false ∧
    (blockCycle s).2.decoder = some (instructionDecoder w) ∧
    (blockCycle s).2.alu = some (aluDatapath s.params (instructionDecoder w)
      (registerRead s.regs (reg1Of w)) (registerRead s.regs (reg2Of w))) ∧
    ((instructionDecoder w).opHalt = false → (blockCycle s).1.runState = .running) ∧
    ((instructionDecoder w).opHalt = true →
      (blockCycle s).1.runState = .halted ∧ (blockCycle s).1.outcome = some .haltOpcode))

/-- The strobes of an iteration say what its state says: `done` at the end of a run (42_sequencer_and_host.md R145), one
`diag_valid` with `diag_pc` and `diag_word` for each report (60_exceptions.md R182). -/
def Obligations.StrobesFollowTheState : Prop :=
  ∀ s : State, ((blockCycle s).2.done = true ↔ s.runState = .running ∧ (blockCycle s).1.runState ≠ .running) ∧
    (blockCycle s).1.reports = s.reports ++ (blockCycle s).2.diag.toList
end

