-- ==== Sys2Proof/Laws/Encoding.lean ====
section
/-! SUPPORT. The bit patterns as numbers, and the fields read back from them. -/

namespace Sys2Proof

theorem packValue_toNat (a b : BitVec 4) (c : BitVec 8) :
    (packValue a b c).toNat = a.toNat * 4096 + b.toNat * 256 + c.toNat := by
  show (a ++ b ++ c : BitVec (4 + 4 + 8)).toNat = _
  rw [BitVec.toNat_append, ← Nat.shiftLeft_add_eq_or_of_lt c.isLt, BitVec.toNat_append,
    ← Nat.shiftLeft_add_eq_or_of_lt b.isLt]
  simp only [Nat.shiftLeft_eq]
  omega

theorem packRegs_toNat (a b c d : BitVec 4) :
    (packRegs a b c d).toNat = a.toNat * 4096 + b.toNat * 256 + c.toNat * 16 + d.toNat := by
  show (a ++ b ++ c ++ d : BitVec (4 + 4 + 4 + 4)).toNat = _
  rw [BitVec.toNat_append, ← Nat.shiftLeft_add_eq_or_of_lt d.isLt, BitVec.toNat_append,
    ← Nat.shiftLeft_add_eq_or_of_lt c.isLt, BitVec.toNat_append, ← Nat.shiftLeft_add_eq_or_of_lt b.isLt]
  simp only [Nat.shiftLeft_eq]
  omega

theorem packLow_toNat (a : BitVec 4) (b : BitVec 12) : (packLow a b).toNat = a.toNat * 4096 + b.toNat := by
  show (a ++ b : BitVec (4 + 12)).toNat = _
  rw [BitVec.toNat_append, ← Nat.shiftLeft_add_eq_or_of_lt b.isLt, Nat.shiftLeft_eq]

theorem opcodeOf_toNat (w : Word) : (opcodeOf w).toNat = w.toNat / 4096 := by
  have := w.isLt
  simp only [opcodeOf, BitVec.extractLsb'_toNat, Nat.shiftRight_eq_div_pow]
  omega

theorem reg1Of_toNat (w : Word) : (reg1Of w).toNat = w.toNat / 256 % 16 := by
  simp [reg1Of, BitVec.extractLsb'_toNat, Nat.shiftRight_eq_div_pow]

theorem reg2Of_toNat (w : Word) : (reg2Of w).toNat = w.toNat / 16 % 16 := by
  simp [reg2Of, BitVec.extractLsb'_toNat, Nat.shiftRight_eq_div_pow]

theorem valueOf_toNat (w : Word) : (valueOf w).toNat = w.toNat % 256 := by
  simp [valueOf, BitVec.extractLsb'_toNat]

theorem low4Of_toNat (w : Word) : (low4Of w).toNat = w.toNat % 16 := by
  simp [low4Of, BitVec.extractLsb'_toNat]

theorem low12Of_toNat (w : Word) : (low12Of w).toNat = w.toNat % 4096 := by
  simp [low12Of, BitVec.extractLsb'_toNat]

@[simp] theorem opcodeOf_packValue (a b : BitVec 4) (c : BitVec 8) : opcodeOf (packValue a b c) = a := by
  apply BitVec.eq_of_toNat_eq
  rw [opcodeOf_toNat, packValue_toNat]
  omega

@[simp] theorem reg1Of_packValue (a b : BitVec 4) (c : BitVec 8) : reg1Of (packValue a b c) = b := by
  apply BitVec.eq_of_toNat_eq
  rw [reg1Of_toNat, packValue_toNat]
  omega

@[simp] theorem valueOf_packValue (a b : BitVec 4) (c : BitVec 8) : valueOf (packValue a b c) = c := by
  apply BitVec.eq_of_toNat_eq
  rw [valueOf_toNat, packValue_toNat]
  omega

@[simp] theorem opcodeOf_packRegs (a b c d : BitVec 4) : opcodeOf (packRegs a b c d) = a := by
  apply BitVec.eq_of_toNat_eq
  rw [opcodeOf_toNat, packRegs_toNat]
  omega

@[simp] theorem reg1Of_packRegs (a b c d : BitVec 4) : reg1Of (packRegs a b c d) = b := by
  apply BitVec.eq_of_toNat_eq
  rw [reg1Of_toNat, packRegs_toNat]
  omega

@[simp] theorem reg2Of_packRegs (a b c d : BitVec 4) : reg2Of (packRegs a b c d) = c := by
  apply BitVec.eq_of_toNat_eq
  rw [reg2Of_toNat, packRegs_toNat]
  omega

@[simp] theorem low4Of_packRegs (a b c d : BitVec 4) : low4Of (packRegs a b c d) = d := by
  apply BitVec.eq_of_toNat_eq
  rw [low4Of_toNat, packRegs_toNat]
  omega

@[simp] theorem opcodeOf_packLow (a : BitVec 4) (b : BitVec 12) : opcodeOf (packLow a b) = a := by
  apply BitVec.eq_of_toNat_eq
  rw [opcodeOf_toNat, packLow_toNat]
  omega

@[simp] theorem low12Of_packLow (a : BitVec 4) (b : BitVec 12) : low12Of (packLow a b) = b := by
  apply BitVec.eq_of_toNat_eq
  rw [low12Of_toNat, packLow_toNat]
  omega

end Sys2Proof
end

