-- ==== Sys2Proof/Laws/Memory.lean ====
section
/-! SUPPORT. The memory: a write is read back, leaves every other cell alone, and keeps the canonical form. -/

namespace Sys2Proof.Machine

@[simp] theorem Memory.read_nil (a : Nat) : Memory.read [] a = Memory.unlisted := rfl

theorem Memory.read_cons (b : Nat) (w : Word) (rest : Memory) (a : Nat) :
    Memory.read ((b, w) :: rest) a = if a = b then w else Memory.read rest a := rfl

theorem Memory.wfFrom_cons (lo a : Nat) (v : Word) (rest : Memory) :
    Memory.wfFrom lo ((a, v) :: rest) = true ↔
      lo ≤ a ∧ v ≠ Memory.unlisted ∧ Memory.wfFrom (a + 1) rest = true := by
  simp [Memory.wfFrom, and_assoc]

theorem Memory.wfFrom_mono {lo lo' : Nat} (h : lo' ≤ lo) (m : Memory) (hm : Memory.wfFrom lo m = true) :
    Memory.wfFrom lo' m = true := by
  cases m with
  | nil => rfl
  | cons c rest =>
    obtain ⟨h1, h2, h3⟩ := (Memory.wfFrom_cons _ _ _ _).1 hm
    exact (Memory.wfFrom_cons _ _ _ _).2 ⟨by omega, h2, h3⟩

/-- Below its lower bound a canonical memory lists nothing. -/
theorem Memory.read_below {lo : Nat} (m : Memory) (hm : Memory.wfFrom lo m = true) {a : Nat} (ha : a < lo) :
    m.read a = Memory.unlisted := by
  induction m generalizing lo with
  | nil => rfl
  | cons c rest ih =>
    obtain ⟨h1, -, h3⟩ := (Memory.wfFrom_cons _ _ _ _).1 hm
    rw [Memory.read_cons, if_neg (by omega)]
    exact ih h3 (by omega)

/-- What a write does to every cell: the written cell holds the value, every other cell is as before. -/
theorem Memory.read_write {lo : Nat} (m : Memory) (hm : Memory.wfFrom lo m = true) (a : Nat) (v : Word) (b : Nat) :
    (m.write a v).read b = if b = a then v else m.read b := by
  induction m generalizing lo with
  | nil =>
    by_cases hv : v = Memory.unlisted
    · simp [Memory.write, hv]
    · simp [Memory.write, hv, Memory.read_cons]
  | cons c rest ih =>
    obtain ⟨c, w⟩ := c
    obtain ⟨-, -, h3⟩ := (Memory.wfFrom_cons _ _ _ _).1 hm
    have low : ∀ x, x < c + 1 → Memory.read rest x = Memory.unlisted := fun x hx => Memory.read_below rest h3 hx
    rcases Nat.lt_trichotomy a c with hac | hac | hac
    · by_cases hv : v = Memory.unlisted
      · by_cases hb : b = a
        · subst hb
          simp [Memory.write, hac, hv, Memory.read_cons, low b (by omega), Nat.ne_of_lt hac]
        · simp [Memory.write, hac, hv, hb]
      · simp [Memory.write, hac, hv, Memory.read_cons]
    · subst hac
      by_cases hv : v = Memory.unlisted
      · by_cases hb : b = a
        · subst hb
          simp [Memory.write, hv, low b (by omega)]
        · simp [Memory.write, hv, Memory.read_cons, hb]
      · by_cases hb : b = a
        · simp [Memory.write, hv, Memory.read_cons, hb]
        · simp [Memory.write, hv, Memory.read_cons, hb]
    · have h1 : ¬ a < c := by omega
      have h2 : ¬ a = c := by omega
      by_cases hb : b = c
      · subst hb
        simp [Memory.write, h1, h2, Memory.read_cons, show ¬ b = a by omega]
      · simp [Memory.write, h1, h2, Memory.read_cons, hb, ih h3]

/-- The written cell holds the value. -/
theorem Memory.read_write_same (m : Memory) (hm : m.wf = true) (a : Nat) (v : Word) : (m.write a v).read a = v := by
  simp [Memory.read_write m hm]

/-- Every other cell is as before. -/
theorem Memory.read_write_other (m : Memory) (hm : m.wf = true) (a : Nat) (v : Word) {b : Nat} (h : b ≠ a) :
    (m.write a v).read b = m.read b := by
  simp [Memory.read_write m hm, h]

theorem Memory.wfFrom_write {lo : Nat} (m : Memory) (hm : Memory.wfFrom lo m = true) (a : Nat) (ha : lo ≤ a) (v : Word) :
    Memory.wfFrom lo (m.write a v) = true := by
  induction m generalizing lo with
  | nil =>
    by_cases hv : v = Memory.unlisted
    · simp [Memory.write, hv, Memory.wfFrom]
    · rw [Memory.write, if_neg hv]
      exact (Memory.wfFrom_cons _ _ _ _).2 ⟨ha, hv, rfl⟩
  | cons c rest ih =>
    obtain ⟨c, w⟩ := c
    obtain ⟨h1, h2, h3⟩ := (Memory.wfFrom_cons _ _ _ _).1 hm
    unfold Memory.write
    split
    · split
      · exact hm
      · rename_i hac hv
        exact (Memory.wfFrom_cons _ _ _ _).2 ⟨ha, hv, (Memory.wfFrom_cons _ _ _ _).2 ⟨by omega, h2, h3⟩⟩
    · split
      · rename_i hac
        subst hac
        split
        · exact Memory.wfFrom_mono (by omega) rest h3
        · rename_i hv
          exact (Memory.wfFrom_cons _ _ _ _).2 ⟨h1, hv, h3⟩
      · exact (Memory.wfFrom_cons _ _ _ _).2 ⟨h1, h2, ih h3 (by omega)⟩

/-- A write keeps the canonical form. -/
theorem Memory.wf_write (m : Memory) (hm : m.wf = true) (a : Nat) (v : Word) : (m.write a v).wf = true :=
  Memory.wfFrom_write m hm a (Nat.zero_le a) v

/-- Consecutive writes keep the canonical form. -/
theorem Memory.wf_writeAll (ws : List Word) (m : Memory) (hm : m.wf = true) (a : Nat) : (m.writeAll a ws).wf = true := by
  induction ws generalizing m a with
  | nil => exact hm
  | cons w rest ih => exact ih _ (Memory.wf_write m hm a w) _

/-- A write inside the memory lists no cell outside it. -/
theorem Memory.within_write (n : Nat) (m : Memory) (hm : m.within n = true) (a : Nat) (ha : a < n) (v : Word) :
    (m.write a v).within n = true := by
  induction m with
  | nil =>
    by_cases hv : v = Memory.unlisted
    · simp [Memory.write, hv, Memory.within]
    · simp [Memory.write, hv, Memory.within, ha]
  | cons c rest ih =>
    obtain ⟨c, w⟩ := c
    simp only [Memory.within, List.all_cons, Bool.and_eq_true] at hm
    have hrest : (Memory.write rest a v).within n = true := ih hm.2
    unfold Memory.write
    split
    · split
      · simpa [Memory.within] using hm
      · simpa [Memory.within, ha] using hm
    · split
      · split
        · exact hm.2
        · simpa [Memory.within, ha] using hm.2
      · simpa [Memory.within] using And.intro (by simpa using hm.1) (by simpa [Memory.within] using hrest)

/-- Consecutive writes inside the memory list no cell outside it. -/
theorem Memory.within_writeAll (n : Nat) (ws : List Word) (m : Memory) (hm : m.within n = true) (a : Nat)
    (ha : a + ws.length ≤ n) : (m.writeAll a ws).within n = true := by
  induction ws generalizing m a with
  | nil => exact hm
  | cons w rest ih =>
    simp only [List.length_cons] at ha
    exact ih _ (Memory.within_write n m hm a (by omega) w) _ (by omega)

/-- The memory after reset is in canonical form. -/
theorem State.reset_mem_wf : State.reset.mem.wf = true := rfl

end Sys2Proof.Machine
end

