-- ==== Sys2Proof/Laws/State.lean ====
section
/-! SUPPORT. One lemma per field per update of the state, so that no later proof unfolds a record update. -/

namespace Sys2Proof.Machine

variable (s : State)

@[simp] theorem State.setMem_params (m : Memory) : (s.setMem m).params = s.params := rfl
@[simp] theorem State.setMem_pc (m : Memory) : (s.setMem m).pc = s.pc := rfl
@[simp] theorem State.setMem_regs (m : Memory) : (s.setMem m).regs = s.regs := rfl
@[simp] theorem State.setMem_ir (m : Memory) : (s.setMem m).ir = s.ir := rfl
@[simp] theorem State.setMem_runState (m : Memory) : (s.setMem m).runState = s.runState := rfl
@[simp] theorem State.setMem_cause (m : Memory) : (s.setMem m).cause = s.cause := rfl
@[simp] theorem State.setMem_faultInfo (m : Memory) : (s.setMem m).faultInfo = s.faultInfo := rfl
@[simp] theorem State.setMem_stepCount (m : Memory) : (s.setMem m).stepCount = s.stepCount := rfl
@[simp] theorem State.setMem_reports (m : Memory) : (s.setMem m).reports = s.reports := rfl
@[simp] theorem State.setMem_mem (m : Memory) : (s.setMem m).mem = m := rfl

@[simp] theorem State.setReg_params (r : Reg) (v : Word) : (s.setReg r v).params = s.params := rfl
@[simp] theorem State.setReg_pc (r : Reg) (v : Word) : (s.setReg r v).pc = s.pc := rfl
@[simp] theorem State.setReg_regs (r : Reg) (v : Word) : (s.setReg r v).regs = s.regs.set r v := rfl
@[simp] theorem State.setReg_ir (r : Reg) (v : Word) : (s.setReg r v).ir = s.ir := rfl
@[simp] theorem State.setReg_runState (r : Reg) (v : Word) : (s.setReg r v).runState = s.runState := rfl
@[simp] theorem State.setReg_cause (r : Reg) (v : Word) : (s.setReg r v).cause = s.cause := rfl
@[simp] theorem State.setReg_faultInfo (r : Reg) (v : Word) : (s.setReg r v).faultInfo = s.faultInfo := rfl
@[simp] theorem State.setReg_stepCount (r : Reg) (v : Word) : (s.setReg r v).stepCount = s.stepCount := rfl
@[simp] theorem State.setReg_reports (r : Reg) (v : Word) : (s.setReg r v).reports = s.reports := rfl
@[simp] theorem State.setReg_mem (r : Reg) (v : Word) : (s.setReg r v).mem = s.mem := rfl

@[simp] theorem State.setPc_params (t : Word) : (s.setPc t).params = s.params := rfl
@[simp] theorem State.setPc_pc (t : Word) : (s.setPc t).pc = t := rfl
@[simp] theorem State.setPc_regs (t : Word) : (s.setPc t).regs = s.regs := rfl
@[simp] theorem State.setPc_ir (t : Word) : (s.setPc t).ir = s.ir := rfl
@[simp] theorem State.setPc_runState (t : Word) : (s.setPc t).runState = s.runState := rfl
@[simp] theorem State.setPc_cause (t : Word) : (s.setPc t).cause = s.cause := rfl
@[simp] theorem State.setPc_faultInfo (t : Word) : (s.setPc t).faultInfo = s.faultInfo := rfl
@[simp] theorem State.setPc_stepCount (t : Word) : (s.setPc t).stepCount = s.stepCount := rfl
@[simp] theorem State.setPc_reports (t : Word) : (s.setPc t).reports = s.reports := rfl
@[simp] theorem State.setPc_mem (t : Word) : (s.setPc t).mem = s.mem := rfl

@[simp] theorem State.advancePc_params : s.advancePc.params = s.params := rfl
@[simp] theorem State.advancePc_pc : s.advancePc.pc = s.pc + 1 := rfl
@[simp] theorem State.advancePc_regs : s.advancePc.regs = s.regs := rfl
@[simp] theorem State.advancePc_ir : s.advancePc.ir = s.ir := rfl
@[simp] theorem State.advancePc_runState : s.advancePc.runState = s.runState := rfl
@[simp] theorem State.advancePc_cause : s.advancePc.cause = s.cause := rfl
@[simp] theorem State.advancePc_faultInfo : s.advancePc.faultInfo = s.faultInfo := rfl
@[simp] theorem State.advancePc_stepCount : s.advancePc.stepCount = s.stepCount := rfl
@[simp] theorem State.advancePc_reports : s.advancePc.reports = s.reports := rfl
@[simp] theorem State.advancePc_mem : s.advancePc.mem = s.mem := rfl

@[simp] theorem State.latchIr_params (w : Word) : (s.latchIr w).params = s.params := rfl
@[simp] theorem State.latchIr_pc (w : Word) : (s.latchIr w).pc = s.pc := rfl
@[simp] theorem State.latchIr_regs (w : Word) : (s.latchIr w).regs = s.regs := rfl
@[simp] theorem State.latchIr_ir (w : Word) : (s.latchIr w).ir = w := rfl
@[simp] theorem State.latchIr_runState (w : Word) : (s.latchIr w).runState = s.runState := rfl
@[simp] theorem State.latchIr_cause (w : Word) : (s.latchIr w).cause = s.cause := rfl
@[simp] theorem State.latchIr_faultInfo (w : Word) : (s.latchIr w).faultInfo = s.faultInfo := rfl
@[simp] theorem State.latchIr_stepCount (w : Word) : (s.latchIr w).stepCount = s.stepCount := rfl
@[simp] theorem State.latchIr_reports (w : Word) : (s.latchIr w).reports = s.reports := rfl
@[simp] theorem State.latchIr_mem (w : Word) : (s.latchIr w).mem = s.mem := rfl

@[simp] theorem State.countStep_params : s.countStep.params = s.params := rfl
@[simp] theorem State.countStep_pc : s.countStep.pc = s.pc := rfl
@[simp] theorem State.countStep_regs : s.countStep.regs = s.regs := rfl
@[simp] theorem State.countStep_ir : s.countStep.ir = s.ir := rfl
@[simp] theorem State.countStep_runState : s.countStep.runState = s.runState := rfl
@[simp] theorem State.countStep_cause : s.countStep.cause = s.cause := rfl
@[simp] theorem State.countStep_faultInfo : s.countStep.faultInfo = s.faultInfo := rfl
@[simp] theorem State.countStep_stepCount : s.countStep.stepCount = s.stepCount + 1 := rfl
@[simp] theorem State.countStep_reports : s.countStep.reports = s.reports := rfl
@[simp] theorem State.countStep_mem : s.countStep.mem = s.mem := rfl

@[simp] theorem State.retire_params : s.retire.params = s.params := rfl
@[simp] theorem State.retire_pc : s.retire.pc = s.pc + 1 := rfl
@[simp] theorem State.retire_regs : s.retire.regs = s.regs := rfl
@[simp] theorem State.retire_ir : s.retire.ir = s.ir := rfl
@[simp] theorem State.retire_runState : s.retire.runState = s.runState := rfl
@[simp] theorem State.retire_cause : s.retire.cause = s.cause := rfl
@[simp] theorem State.retire_faultInfo : s.retire.faultInfo = s.faultInfo := rfl
@[simp] theorem State.retire_stepCount : s.retire.stepCount = s.stepCount + 1 := rfl
@[simp] theorem State.retire_reports : s.retire.reports = s.reports := rfl
@[simp] theorem State.retire_mem : s.retire.mem = s.mem := rfl

@[simp] theorem State.report_params : s.report.params = s.params := rfl
@[simp] theorem State.report_pc : s.report.pc = s.pc := rfl
@[simp] theorem State.report_regs : s.report.regs = s.regs := rfl
@[simp] theorem State.report_ir : s.report.ir = s.ir := rfl
@[simp] theorem State.report_runState : s.report.runState = s.runState := rfl
@[simp] theorem State.report_cause : s.report.cause = s.cause := rfl
@[simp] theorem State.report_faultInfo : s.report.faultInfo = s.faultInfo := rfl
@[simp] theorem State.report_stepCount : s.report.stepCount = s.stepCount := rfl
@[simp] theorem State.report_reports : s.report.reports = s.reports ++ [{ pc := s.pc, word := s.ir }] := rfl
@[simp] theorem State.report_mem : s.report.mem = s.mem := rfl

@[simp] theorem State.stop_params (o : RunEnd) : (s.stop o).params = s.params := rfl
@[simp] theorem State.stop_pc (o : RunEnd) : (s.stop o).pc = s.pc := rfl
@[simp] theorem State.stop_regs (o : RunEnd) : (s.stop o).regs = s.regs := rfl
@[simp] theorem State.stop_ir (o : RunEnd) : (s.stop o).ir = s.ir := rfl
@[simp] theorem State.stop_runState (o : RunEnd) : (s.stop o).runState = o.runState := rfl
@[simp] theorem State.stop_cause (o : RunEnd) : (s.stop o).cause = o.cause := rfl
@[simp] theorem State.stop_faultInfo (o : RunEnd) : (s.stop o).faultInfo = o.info := rfl
@[simp] theorem State.stop_stepCount (o : RunEnd) : (s.stop o).stepCount = s.stepCount := rfl
@[simp] theorem State.stop_reports (o : RunEnd) : (s.stop o).reports = s.reports := rfl
@[simp] theorem State.stop_mem (o : RunEnd) : (s.stop o).mem = s.mem := rfl

@[simp] theorem State.placeWord_params (w : Word) : (s.placeWord w).params = s.params := rfl
@[simp] theorem State.placeWord_pc (w : Word) : (s.placeWord w).pc = s.pc := rfl
@[simp] theorem State.placeWord_regs (w : Word) : (s.placeWord w).regs = s.regs := rfl
@[simp] theorem State.placeWord_ir (w : Word) : (s.placeWord w).ir = s.ir := rfl
@[simp] theorem State.placeWord_runState (w : Word) : (s.placeWord w).runState = .running := rfl
@[simp] theorem State.placeWord_cause (w : Word) : (s.placeWord w).cause = s.cause := rfl
@[simp] theorem State.placeWord_faultInfo (w : Word) : (s.placeWord w).faultInfo = s.faultInfo := rfl
@[simp] theorem State.placeWord_stepCount (w : Word) : (s.placeWord w).stepCount = s.stepCount := rfl
@[simp] theorem State.placeWord_reports (w : Word) : (s.placeWord w).reports = s.reports := rfl
@[simp] theorem State.placeWord_mem (w : Word) : (s.placeWord w).mem = s.mem.write s.pc.toNat w := rfl

@[simp] theorem State.startRun_params : s.startRun.params = s.params := rfl
@[simp] theorem State.startRun_pc : s.startRun.pc = 0 := rfl
@[simp] theorem State.startRun_regs : s.startRun.regs = s.regs := rfl
@[simp] theorem State.startRun_ir : s.startRun.ir = s.ir := rfl
@[simp] theorem State.startRun_runState : s.startRun.runState = .running := rfl
@[simp] theorem State.startRun_cause : s.startRun.cause = .none := rfl
@[simp] theorem State.startRun_faultInfo : s.startRun.faultInfo = 0 := rfl
@[simp] theorem State.startRun_stepCount : s.startRun.stepCount = 0 := rfl
@[simp] theorem State.startRun_reports : s.startRun.reports = [] := rfl
@[simp] theorem State.startRun_mem : s.startRun.mem = s.mem := rfl

@[simp] theorem State.setMem_x (m : Memory) (r : Reg) : (s.setMem m).x r = s.x r := rfl
@[simp] theorem State.setPc_x (t : Word) (r : Reg) : (s.setPc t).x r = s.x r := rfl
@[simp] theorem State.latchIr_x (w : Word) (r : Reg) : (s.latchIr w).x r = s.x r := rfl
@[simp] theorem State.countStep_x (r : Reg) : s.countStep.x r = s.x r := rfl
@[simp] theorem State.retire_x (r : Reg) : s.retire.x r = s.x r := rfl
@[simp] theorem State.report_x (r : Reg) : s.report.x r = s.x r := rfl
@[simp] theorem State.stop_x (o : RunEnd) (r : Reg) : (s.stop o).x r = s.x r := rfl
@[simp] theorem State.startRun_x (r : Reg) : s.startRun.x r = s.x r := rfl

@[simp] theorem State.powerOn_params (p : Params) : (State.powerOn p).params = p := rfl
@[simp] theorem State.powerOn_mem (p : Params) : (State.powerOn p).mem = [] := rfl
@[simp] theorem State.powerOn_runState (p : Params) : (State.powerOn p).runState = .idle := rfl

end Sys2Proof.Machine
end

