-- ==== Sys2Proof/Laws/Ops.lean ====
section
/-! SUPPORT. What each shared operation over registers, memory and status can do, said once. -/

namespace Sys2Proof.Machine

/-! ### Registers and operands -/

@[simp] theorem Reg.ofField_field (r : Reg) : Reg.ofField r.field = some r := by
  cases r <;> rfl

/-- A field names a register exactly when its value is below 8. -/
theorem Reg.ofField_eq_none (f : BitVec 4) : Reg.ofField f = none ↔ 8 ≤ f.toNat := by
  revert f
  decide

/-- The register a field names has that field. -/
theorem Reg.field_of_ofField {f : BitVec 4} {r : Reg} (h : Reg.ofField f = some r) : f = r.field := by
  revert f r
  decide +revert

theorem Reg.field_lt (r : Reg) : r.field.toNat < 8 := by
  cases r <;> decide

@[simp] theorem RegFile.get_set_same (f : RegFile) (r : Reg) (v : Word) : (f.set r v).get r = v := by
  cases r <;> rfl

theorem RegFile.get_set_other (f : RegFile) {q r : Reg} (h : q ≠ r) (v : Word) : (f.set r v).get q = f.get q := by
  cases r <;> cases q <;> first | rfl | exact absurd rfl h

@[simp] theorem State.x_setReg_same (s : State) (r : Reg) (v : Word) : (s.setReg r v).x r = v :=
  RegFile.get_set_same _ _ _

theorem State.x_setReg_other (s : State) {q r : Reg} (h : q ≠ r) (v : Word) : (s.setReg r v).x q = s.x q :=
  RegFile.get_set_other _ h _

theorem absAddr_toNat (v : BitVec 8) : (absAddr v).toNat = v.toNat := by
  have := v.isLt
  simp only [absAddr, BitVec.toNat_setWidth]
  omega

theorem immediate_toNat (v : BitVec 8) : (immediate v).toNat = v.toNat := by
  have := v.isLt
  simp only [immediate, BitVec.toNat_setWidth]
  omega

theorem addWrap_toNat (w : RegWidth) (a b : Word) : (addWrap w a b).toNat = (a.toNat + b.toNat) % 2 ^ regBits w := by
  cases w
  · simp only [addWrap, regBits, BitVec.toNat_ofNat]
    omega
  · simp only [addWrap, regBits, BitVec.toNat_ofNat]
    omega

/-! ### Answers -/

/-- `onNext` answers a next value only through a next value. -/
theorem onNext_eq_next {α β : Type} {o : Result α} {f : α → Result β} {b : β} :
    onNext o f = .next b ↔ ∃ a, o = .next a ∧ f a = .next b := by
  cases o <;> simp [onNext]

@[simp] theorem onNext_next {α β : Type} (a : α) (f : α → Result β) : onNext (.next a) f = f a := rfl

/-- `MemRead` answers the cell, inside the memory only. -/
theorem State.memRead_eq_next {s : State} {a w : Word} :
    s.memRead a = .next w ↔ a.toNat < s.params.memWords ∧ w = s.peek a.toNat := by
  unfold State.memRead State.peek
  split <;> simp_all [eq_comm]

/-- `MemWrite` writes the cell, inside the memory only. -/
theorem State.memWrite_eq_next {s t : State} {a v : Word} :
    s.memWrite a v = .next t ↔ a.toNat < s.params.memWords ∧ t = s.setMem (s.mem.write a.toNat v) := by
  unfold State.memWrite
  split <;> simp_all [eq_comm]

/-- `raise OutOfRange` answers the stopped state and nothing else. -/
@[simp] theorem raiseOutOfRange_eq_next {k : OorKind} {v : Word} {s t : State} :
    raiseOutOfRange k v s = .next t ↔ t = s.stop (.outOfRange k v) := by
  simp [raiseOutOfRange, eq_comm]

@[simp] theorem RunEnd.runState_ne_running (o : RunEnd) : o.runState ≠ .running := by
  cases o <;> simp [RunEnd.runState]

@[simp] theorem RunEnd.runState_ne_idle (o : RunEnd) : o.runState ≠ .idle := by
  cases o <;> simp [RunEnd.runState]

@[simp] theorem RunEnd.cause_ne_none (o : RunEnd) : o.cause ≠ .none := by
  rcases o with _ | _ | ⟨k, v⟩ | _ <;> first | (cases k <;> simp [RunEnd.cause, OorKind.cause]) | simp [RunEnd.cause]

end Sys2Proof.Machine
end

