-- ==== Sys2Proof/Laws/Blocks.lean ====
section
/-! SUPPORT. What the sub-blocks do, once: the register ports, the fault condition, the cycle of an executed word. -/

namespace Sys2Proof.Machine

@[simp] theorem Reg.ofIndex_field (r : Reg) : Reg.ofIndex (r.field.setWidth 3) = r := by cases r <;> decide

@[simp] theorem registerRead_field (f : RegFile) (r : Reg) : registerRead f r.field = f.get r := by
  simp [registerRead]

@[simp] theorem registerCommit_no_commit (f : RegFile) (we : Bool) (field : BitVec 4) (v : Option Word) :
    registerCommit f we field v false = f := by cases v <;> rfl

@[simp] theorem registerCommit_no_we (f : RegFile) (field : BitVec 4) (v : Option Word) (commit : Bool) :
    registerCommit f false field v commit = f := by cases commit <;> cases v <;> rfl

@[simp] theorem registerCommit_field (f : RegFile) (r : Reg) (v : Word) :
    registerCommit f true r.field (some v) true = f.set r v := by simp [registerCommit]

/-- The range flag of `reg1`, bit 3 of the field, says that the field names no register (10_state.md R46). -/
theorem instructionDecoder_reg1Oor (w : Word) :
    (instructionDecoder w).reg1Oor = true ↔ 8 ≤ w.toNat / 256 % 16 := by
  simp only [instructionDecoder, BitVec.getLsbD, Nat.testBit, Nat.shiftRight_eq_div_pow]
  simp
  omega

/-- The range flag of `reg2` (10_state.md R46). -/
theorem instructionDecoder_reg2Oor (w : Word) :
    (instructionDecoder w).reg2Oor = true ↔ 8 ≤ w.toNat / 16 % 16 := by
  simp only [instructionDecoder, BitVec.getLsbD, Nat.testBit, Nat.shiftRight_eq_div_pow]
  simp
  omega

/-- A class output is true exactly for its opcode. -/
theorem opcodeOf_beq (w : Word) (o : BitVec 4) : (opcodeOf w == o) = true ↔ w.toNat / 4096 = o.toNat := by
  rw [beq_iff_eq, ← opcodeOf_toNat, BitVec.toNat_inj]

/-- The blocks' fault signal is the fault condition on the word (42_sequencer_and_host.md R160). -/
theorem stepFault_isSome (p : Params) (w ra rb : Word) :
    (stepFault (instructionDecoder w) (aluDatapath p (instructionDecoder w) ra rb)).isSome = true ↔
      StepFaults p.memWords w := by
  have h1 := instructionDecoder_reg1Oor w
  have h2 := instructionDecoder_reg2Oor w
  have hl : (instructionDecoder w).opLoad = true ↔ w.toNat / 4096 = 1 := opcodeOf_beq w 1#4
  have ha : (instructionDecoder w).opAdd = true ↔ w.toNat / 4096 = 2 := opcodeOf_beq w 2#4
  have hs : (instructionDecoder w).opStore = true ↔ w.toNat / 4096 = 3 := opcodeOf_beq w 3#4
  have hu1 : (instructionDecoder w).useReg1 =
    ((instructionDecoder w).opLoad || (instructionDecoder w).opAdd || (instructionDecoder w).opStore) := rfl
  have hu2 : (instructionDecoder w).useReg2 = (instructionDecoder w).opAdd := rfl
  have hd : (aluDatapath p (instructionDecoder w) ra rb).dataOor = true ↔
      w.toNat / 4096 = 3 ∧ p.memWords ≤ w.toNat % 256 := by
    rw [← hs, ← valueOf_toNat, ← absAddr_toNat]
    simp [aluDatapath, instructionDecoder]
  have key : (stepFault (instructionDecoder w) (aluDatapath p (instructionDecoder w) ra rb)).isSome = true ↔
      ((instructionDecoder w).useReg1 = true ∧ (instructionDecoder w).reg1Oor = true) ∨
      ((instructionDecoder w).useReg2 = true ∧ (instructionDecoder w).reg2Oor = true) ∨
      (aluDatapath p (instructionDecoder w) ra rb).dataOor = true := by
    unfold stepFault
    repeat' split
    all_goals simp_all
  rw [key, hu1, hu2, h1, h2, hd]
  simp only [Bool.or_eq_true, hl, ha, hs, StepFaults]
  omega

/-- A fault of a step ends the run with OutOfRange, and with nothing else. -/
theorem stepFault_outOfRange {d : DecoderPorts} {a : AluPorts} {o : RunEnd} (h : stepFault d a = some o) :
    ∃ k v, o = .outOfRange k v := by
  unfold stepFault at h
  repeat' split at h
  all_goals cases h
  all_goals exact ⟨_, _, rfl⟩

/-- The cycle of a state that executes the word `w` is its FETCH, DECODE and COMMIT. -/
theorem blockCycle_executes {s : State} {w : Word} (h : s.Executes w) :
    blockCycle s = stepPhases s (fetchUnit s.params.memWords s.pc true) w := by
  obtain ⟨⟨_, hr, hin, hw⟩, hs, hl⟩ := h
  have hread : s.mem.read s.pc.toNat = w := hw
  simp [blockCycle, hr, fetchUnit, memoryReadPort, checkPhase, isSentinel, Nat.not_le.2 hin, hread, hs, hl]

end Sys2Proof.Machine
end

