-- ==== Sys2Proof/Laws/Exec.lean ====
section
/-! SUPPORT. One inversion lemma per meaning and for the step: if it answers next, then one of these cases holds. -/

namespace Sys2Proof.Machine

theorem execLoad_next {reg1 : BitVec 4} {value : BitVec 8} {s t : State} :
    execLoad reg1 value s = .next t ↔
      (Reg.ofField reg1 = none ∧ t = s.stop (.outOfRange .reg1 (fieldInfo reg1))) ∨
      (∃ d, Reg.ofField reg1 = some d ∧ t = (s.setReg d (immediate value)).retire) := by
  unfold execLoad
  cases Reg.ofField reg1 with
  | none => simp
  | some d => simp [eq_comm (b := t)]

theorem execAdd_next {reg1 reg2 : BitVec 4} (ignored : BitVec 4) {s t : State} :
    execAdd reg1 reg2 ignored s = .next t ↔
      (Reg.ofField reg1 = none ∧ t = s.stop (.outOfRange .reg1 (fieldInfo reg1))) ∨
      (∃ d, Reg.ofField reg1 = some d ∧ Reg.ofField reg2 = none ∧
        t = s.stop (.outOfRange .reg2 (fieldInfo reg2))) ∨
      (∃ d r, Reg.ofField reg1 = some d ∧ Reg.ofField reg2 = some r ∧
        t = (s.setReg d (addWrap s.params.regWidth (s.x d) (s.x r))).retire) := by
  unfold execAdd
  cases Reg.ofField reg1 with
  | none => simp
  | some d =>
    cases Reg.ofField reg2 with
    | none => simp
    | some r => simp [eq_comm (b := t)]

theorem execStore_next {reg1 : BitVec 4} {value : BitVec 8} {s t : State} :
    execStore reg1 value s = .next t ↔
      (Reg.ofField reg1 = none ∧ t = s.stop (.outOfRange .reg1 (fieldInfo reg1))) ∨
      (∃ r, Reg.ofField reg1 = some r ∧ s.params.memWords ≤ (absAddr value).toNat ∧
        t = s.stop (.outOfRange .data (absAddr value))) ∨
      (∃ r, Reg.ofField reg1 = some r ∧ (absAddr value).toNat < s.params.memWords ∧
        t = (s.setMem (s.mem.write (absAddr value).toNat (s.x r))).retire) := by
  unfold execStore
  cases Reg.ofField reg1 with
  | none => simp
  | some r =>
    by_cases hn : s.params.memWords ≤ (absAddr value).toNat
    · simp [hn, Nat.not_lt.2 hn]
    · simp [hn, Nat.lt_of_not_le hn, onNext_eq_next, State.memWrite_eq_next, eq_comm (b := t)]

/-- A reserved opcode reports and goes on, on every path. -/
theorem unknownOpcode_eq (s : State) : unknownOpcode s = .next s.report.retire := rfl

theorem execJump_eq (ignored : BitVec 4) (value : BitVec 8) (s : State) :
    execJump ignored value s = .next (s.setPc (jumpTarget s.params value)).countStep := rfl

theorem execHalt_eq (ignored : BitVec 12) (s : State) : execHalt ignored s = .next (s.countStep.stop .haltOpcode) := rfl

theorem execEndOfProgram_eq (s : State) : execEndOfProgram s = .next (s.stop .sentinel) := rfl

/-- What the word at `pc` leads to. -/
theorem issueWord_cases (w : Word) (s : State) :
    (w = sentinelWord ∧ issueWord w s = .run .endOfProgram s) ∨
    (w ≠ sentinelWord ∧ s.atStepLimit = true ∧ issueWord w s = .endRun .stepLimit) ∨
    (w ≠ sentinelWord ∧ s.atStepLimit = false ∧ issueWord w s = .run (decode w) (s.latchIr w)) := by
  unfold issueWord
  by_cases hw : w = sentinelWord
  · simp [hw, decode]
  · cases hl : s.atStepLimit <;> simp [hw]

/-- The step limit is reached exactly when `STEP_COUNT` equals it. -/
theorem State.atStepLimit_iff (s : State) : s.atStepLimit = true ↔ s.params.stepLimit = some s.stepCount := by
  unfold State.atStepLimit
  cases s.params.stepLimit with
  | none => simp
  | some l => simp [eq_comm (a := l)]

/-- Everything a step can do when it answers a next state. -/
theorem step_next {s t : State} (h : step s = .next t) :
    s.params.ok = true ∧
      ((s.runState ≠ .running ∧ t = s) ∨
       (s.runState = .running ∧ s.params.memWords ≤ s.pc.toNat ∧ t = s.stop (.outOfRange .fetch s.pc)) ∨
       (s.runState = .running ∧ s.pc.toNat < s.params.memWords ∧ s.peek s.pc.toNat = sentinelWord ∧
          t = s.stop .sentinel) ∨
       (s.runState = .running ∧ s.pc.toNat < s.params.memWords ∧ s.peek s.pc.toNat ≠ sentinelWord ∧
          s.params.stepLimit = some s.stepCount ∧ t = s.stop .stepLimit) ∨
       (s.runState = .running ∧ s.pc.toNat < s.params.memWords ∧ s.peek s.pc.toNat ≠ sentinelWord ∧
          s.params.stepLimit ≠ some s.stepCount ∧
          exec (decodeOpcode (s.peek s.pc.toNat)) (s.latchIr (s.peek s.pc.toNat)) = .next t)) := by
  unfold step nextIssue at h
  by_cases hp : s.params.ok = true
  · refine ⟨hp, ?_⟩
    simp only [hp, if_true] at h
    cases hr : s.runState <;> simp only [hr] at h
    case running =>
      by_cases hf : s.params.memWords ≤ s.pc.toNat
      · simp only [State.fetchOutOfRange, hf, decide_true, if_true, Host.Outcome.next.injEq] at h
        exact .inr (.inl ⟨rfl, hf, h.symm⟩)
      · have hlt := Nat.lt_of_not_le hf
        simp only [State.fetchOutOfRange, hf, decide_false, State.memRead, hlt, if_true, onNext_next] at h
        have hpeek : s.mem.read s.pc.toNat = s.peek s.pc.toNat := rfl
        rw [hpeek] at h
        rcases issueWord_cases (s.peek s.pc.toNat) s with ⟨hw, hi⟩ | ⟨hw, hl, hi⟩ | ⟨hw, hl, hi⟩ <;>
          simp only [hi] at h
        · simp [exec, execEndOfProgram_eq] at h
          exact .inr (.inr (.inl ⟨rfl, hlt, hw, h.symm⟩))
        · simp at h
          exact .inr (.inr (.inr (.inl ⟨rfl, hlt, hw, (State.atStepLimit_iff s).1 hl, h.symm⟩)))
        · refine .inr (.inr (.inr (.inr ⟨rfl, hlt, hw, ?_, ?_⟩)))
          · rw [Ne, ← State.atStepLimit_iff, hl]
            simp
          · simpa [decode, hw] using h
    all_goals
      simp at h
      exact .inl ⟨by simp, h.symm⟩
  · simp [hp] at h

end Sys2Proof.Machine
end

