-- ==== Sys2Proof/Laws/HostPort.lean ====
section
/-! SUPPORT. What the host port can do, said once. -/

namespace Sys2Proof.Machine

/-- A command admitted between runs answers exactly when no run is in progress. -/
theorem betweenRuns_next {s : State} {a b : State × HostReply} :
    betweenRuns s a = .next b ↔ s.runState ≠ .running ∧ b = a := by
  unfold betweenRuns
  cases s.runState <;> simp [eq_comm]

/-- `load_image` leaves the state, or writes a checked image from address 0. -/
theorem State.loadImage_cases (source : Option (List Char)) (s : State) :
    (∃ e, s.loadImage source = (s, .loadFailed e)) ∨
    (∃ ws, checkImage s.params.memWords source = .ok ws ∧
      s.loadImage source = (s.setMem (s.mem.writeAll 0 ws), .loaded)) := by
  unfold State.loadImage
  cases h : checkImage s.params.memWords source <;> simp

/-- The words of well-formed tokens are as many as the tokens. -/
theorem parseTokens_length (ts : List (List Char)) (i : Nat) {ws : List Word} (h : parseTokens i ts = .ok ws) :
    ws.length = ts.length := by
  induction ts generalizing i ws with
  | nil =>
    simp [parseTokens] at h
    simp [← h]
  | cons t rest ih =>
    unfold parseTokens at h
    cases ht : parseToken t with
    | none => simp [ht] at h
    | some w =>
      cases hr : parseTokens (i + 1) rest with
      | error e => simp [ht, hr] at h
      | ok vs =>
        simp [ht, hr] at h
        simp [← h, ih _ hr]

/-- A checked image fits the memory. -/
theorem checkImage_length {n : Nat} {source : Option (List Char)} {ws : List Word} (h : checkImage n source = .ok ws) :
    ws.length ≤ n := by
  cases source with
  | none => simp [checkImage] at h
  | some cs =>
    simp only [checkImage] at h
    cases hp : parseTokens 0 (imageTokens cs) with
    | error e =>
      simp only [hp] at h
      split at h <;> simp at h
    | ok vs =>
      simp only [hp] at h
      split at h
      · simp at h
      · simp at h
        have := parseTokens_length _ _ hp
        rw [← h]
        omega

/-- Everything a host command can do to the state. -/
theorem hostCommand_next {c : HostCommand} {s t : State} {r : HostReply} (h : hostCommand c s = .next (t, r)) :
    t = s ∨ (s.runState ≠ .running ∧ c = .start ∧ t = s.startRun) ∨
      (s.runState ≠ .running ∧ ∃ ws : List Word, ws.length ≤ s.params.memWords ∧ t = s.setMem (s.mem.writeAll 0 ws)) := by
  cases c with
  | loadImage source =>
    obtain ⟨hr, he⟩ := betweenRuns_next.1 h
    rcases State.loadImage_cases source s with ⟨e, hl⟩ | ⟨ws, hc, hl⟩ <;> rw [hl] at he <;> cases he
    · exact .inl rfl
    · exact .inr (.inr ⟨hr, ws, checkImage_length hc, rfl⟩)
  | start =>
    obtain ⟨hr, he⟩ := betweenRuns_next.1 h
    cases he
    exact .inr (.inl ⟨hr, rfl, rfl⟩)
  | dumpRegisters =>
    obtain ⟨-, he⟩ := betweenRuns_next.1 h
    cases he
    exact .inl rfl
  | dumpMemory lo count =>
    obtain ⟨-, he⟩ := betweenRuns_next.1 h
    cases he
    exact .inl rfl
  | readStatus =>
    simp [hostCommand] at h
    exact .inl h.1.symm

end Sys2Proof.Machine
end

