-- ==== Sys2Proof/Laws/PerInstr.lean ====
section
/-! SUPPORT. The family of lemmas with one lemma per constructor of Instr. -/

namespace Sys2Proof.Laws

/-- The word of an instruction carries the opcode of its row of the opcode map (30_encoding.md R88, R90). -/
def EncodedOpcode.Statement (i : Instr) : Prop := opcodeOf (encode i) = i.opcode

theorem EncodedOpcode.load (reg1 : BitVec 4) (value : BitVec 8) : EncodedOpcode.Statement (.load reg1 value) := opcodeOf_packValue _ _ _

theorem EncodedOpcode.add (reg1 : BitVec 4) (reg2 : BitVec 4) (ignored : BitVec 4) : EncodedOpcode.Statement (.add reg1 reg2 ignored) := opcodeOf_packRegs _ _ _ _

theorem EncodedOpcode.store (reg1 : BitVec 4) (value : BitVec 8) : EncodedOpcode.Statement (.store reg1 value) := opcodeOf_packValue _ _ _

theorem EncodedOpcode.jump (ignored : BitVec 4) (value : BitVec 8) : EncodedOpcode.Statement (.jump ignored value) := opcodeOf_packValue _ _ _

theorem EncodedOpcode.halt (ignored : BitVec 12) : EncodedOpcode.Statement (.halt ignored) := opcodeOf_packLow _ _

theorem EncodedOpcode.reserved0 (ignored : BitVec 12) : EncodedOpcode.Statement (.reserved0 ignored) := opcodeOf_packLow _ _

theorem EncodedOpcode.reserved5 (ignored : BitVec 12) : EncodedOpcode.Statement (.reserved5 ignored) := opcodeOf_packLow _ _

theorem EncodedOpcode.reserved6 (ignored : BitVec 12) : EncodedOpcode.Statement (.reserved6 ignored) := opcodeOf_packLow _ _

theorem EncodedOpcode.reserved7 (ignored : BitVec 12) : EncodedOpcode.Statement (.reserved7 ignored) := opcodeOf_packLow _ _

theorem EncodedOpcode.reserved8 (ignored : BitVec 12) : EncodedOpcode.Statement (.reserved8 ignored) := opcodeOf_packLow _ _

theorem EncodedOpcode.reserved9 (ignored : BitVec 12) : EncodedOpcode.Statement (.reserved9 ignored) := opcodeOf_packLow _ _

theorem EncodedOpcode.reservedA (ignored : BitVec 12) : EncodedOpcode.Statement (.reservedA ignored) := opcodeOf_packLow _ _

theorem EncodedOpcode.reservedB (ignored : BitVec 12) : EncodedOpcode.Statement (.reservedB ignored) := opcodeOf_packLow _ _

theorem EncodedOpcode.reservedC (ignored : BitVec 12) : EncodedOpcode.Statement (.reservedC ignored) := opcodeOf_packLow _ _

theorem EncodedOpcode.reservedD (ignored : BitVec 12) : EncodedOpcode.Statement (.reservedD ignored) := opcodeOf_packLow _ _

theorem EncodedOpcode.reservedE (ignored : BitVec 12) : EncodedOpcode.Statement (.reservedE ignored) := opcodeOf_packLow _ _

theorem EncodedOpcode.endOfProgram : EncodedOpcode.Statement (.endOfProgram) := by
  show opcodeOf sentinelWord = 0xF#4
  decide

end Sys2Proof.Laws
end

