-- ==== Sys2Proof/Tests/Slice0.lean ====
section
/-! SUPPORT. Tests. The expected values are those of 95_test_vectors.md, or are worked out by hand from the rule named. -/

namespace Sys2Proof.Tests

open Sys2Proof.Machine

/-- A running state with the word at its `pc` 0. -/
def at0 (w : Word) : State := State.reset.placeWord w

/-- The same at another address and step count. -/
def atPc (pc w : Word) (count : BitVec 32) : State := ({ State.reset with pc := pc, stepCount := count }).placeWord w

/-- A running instance with other parameters. -/
def inst (p : Params) (pc w : Word) : State := ({ State.powerOn p with pc := pc }).placeWord w

def small : Params := { memWords := 128, regWidth := .w16, jumpCompat := false, stepLimit := none }
def limited (n : BitVec 32) : Params := { Params.neo5 with stepLimit := some n }

/-- A property of the next state; false when there is none. -/
def after (o : Result State) (f : State → Bool) : Bool :=
  match o with
  | .next t => f t
  | .fault _ => false
  | .refused _ => false

/-! ### Well-formedness -/

/-- R90: the HALT pattern with all ones is the sentinel. -/
theorem test_halt_all_ones_is_ill_formed : (Instr.halt 0xFFF#12).wellFormed = false := by decide
theorem test_largest_halt_is_well_formed : (Instr.halt 0xFFE#12).wellFormed = true := by decide

/-! ### Decoding: words written out from 30_encoding.md R83 -/

theorem test_decode_load : decode 0b0001_0010_00110100#16 = .load 2#4 0x34#8 := by decide
theorem test_decode_add : decode 0b0010_1010_0101_1100#16 = .add 10#4 5#4 12#4 := by decide
theorem test_decode_store : decode 0b0011_1111_00010010#16 = .store 15#4 0x12#8 := by decide
theorem test_decode_jump : decode 0b0100_1111_00000111#16 = .jump 15#4 7#8 := by decide
theorem test_decode_halt : decode 0b1111_000100100011#16 = .halt 0x123#12 := by decide
theorem test_decode_largest_halt : decode 0b1111_111111111110#16 = .halt 0xFFE#12 := by decide
theorem test_decode_end : decode 0b1111_1111_1111_1111#16 = .endOfProgram := by decide
theorem test_decode_reserved0 : decode 0b0000_000000000000#16 = .reserved0 0#12 := by decide
theorem test_decode_reserved5 : decode 0b0101_000100100011#16 = .reserved5 0x123#12 := by decide
theorem test_decode_reserved6 : decode 0b0110_111111111111#16 = .reserved6 0xFFF#12 := by decide
theorem test_decode_reserved7 : decode 0b0111_111111111111#16 = .reserved7 0xFFF#12 := by decide
theorem test_decode_reserved8 : decode 0b1000_000000000000#16 = .reserved8 0#12 := by decide
theorem test_decode_reserved9 : decode 0b1001_000000000001#16 = .reserved9 1#12 := by decide
theorem test_decode_reservedA : decode 0b1010_100000000000#16 = .reservedA 0x800#12 := by decide
theorem test_decode_reservedB : decode 0b1011_000000010000#16 = .reservedB 0x010#12 := by decide
theorem test_decode_reservedC : decode 0b1100_111111111111#16 = .reservedC 0xFFF#12 := by decide
theorem test_decode_reservedD : decode 0b1101_000000000010#16 = .reservedD 2#12 := by decide
theorem test_decode_reservedE : decode 0b1110_000000000000#16 = .reservedE 0#12 := by decide
theorem test_encode_add : encode (.add 2#4 2#4 0#4) = 0x2220#16 := by decide
theorem test_decodeTableWord_end : decodeTableWord 16 0xFFFF = some .endOfProgram := by decide

/-! ### One step of each instruction (95_test_vectors.md, section 2) -/

theorem test_load_clears : after (step ((atPc 6 0x1300 0).setReg .r3 0x1234)) (fun t => t.x .r3 == 0 && t.pc == 7) = true := by
  decide
theorem test_load_reg8_raises : after (step (atPc 2 0x1800 5)) (fun t =>
    t.runState == .stopped && t.cause == .oorReg1 && t.faultInfo == 8 && t.pc == 2 && t.stepCount == 5) = true := by decide
theorem test_add_wraps : after (step (((at0 0x2010).setReg .r0 0xFFFF).setReg .r1 1))
    (fun t => t.x .r0 == 0 && t.x .r1 == 1 && t.pc == 1) = true := by decide
theorem test_add_wraps_at_13 : after (step (((inst { Params.neo5 with regWidth := .w13 } 0 0x2010).setReg .r0 0x1FFF).setReg .r1 1))
    (fun t => t.x .r0 == 0) = true := by decide
theorem test_add_reg1_before_reg2 : after (step (at0 0x2898)) (fun t => t.cause == .oorReg1 && t.faultInfo == 8) = true := by
  decide
theorem test_add_reg2_raises : after (step (at0 0x2090)) (fun t => t.cause == .oorReg2 && t.faultInfo == 9) = true := by decide
theorem test_store_overwrites_itself : after (step ((atPc 3 0x3003 0).setReg .r0 0x1234))
    (fun t => t.peek 3 == 0x1234 && t.pc == 4) = true := by decide
theorem test_store_past_small_memory : after (step ((inst small 0 0x3080).setReg .r0 1))
    (fun t => t.cause == .oorData && t.faultInfo == 0x80 && t.peek 0x80 == 0) = true := by decide
theorem test_jump_ignores_reg1 : after (step (atPc 9 0x4F07 0)) (fun t => t.pc == 7 && t.stepCount == 1) = true := by decide
theorem test_jump_compat : after (step (inst { Params.neo5 with jumpCompat := true } 0 0x40FF)) (fun t => t.pc == 256) = true := by
  decide
theorem test_halt : after (step (atPc 7 0xF000 3)) (fun t =>
    t.runState == .halted && t.cause == .haltOpcode && t.pc == 7 && t.stepCount == 4) = true := by decide
theorem test_end : after (step (atPc 4 0xFFFF 4)) (fun t =>
    t.runState == .halted && t.cause == .sentinel && t.pc == 4 && t.stepCount == 4) = true := by decide

/-- What a reserved word at address 0 leaves: one report, `pc` 1, the run going on. -/
def reportsAndGoesOn (w : Word) : Bool := after (step (at0 w)) (fun t =>
  t.reports == [{ pc := 0, word := w }] && t.pc == 1 && t.regs == RegFile.zero && t.runState == .running)

theorem test_reserved0 : after (step (atPc 9 0x0000 0)) (fun t => t.reports == [{ pc := 9, word := 0 }] && t.pc == 10) = true := by
  decide
theorem test_reserved5 : after (step (atPc 4 0x5123 0)) (fun t =>
    t.reports == [{ pc := 4, word := 0x5123 }] && t.pc == 5) = true := by decide
theorem test_reserved6 : reportsAndGoesOn 0x6FFF = true := by decide
theorem test_reserved7 : reportsAndGoesOn 0x7FFF = true := by decide
theorem test_reserved8 : reportsAndGoesOn 0x8FFF = true := by decide
theorem test_reserved9 : reportsAndGoesOn 0x9FFF = true := by decide
theorem test_reservedA : reportsAndGoesOn 0xAFFF = true := by decide
theorem test_reservedB : reportsAndGoesOn 0xBFFF = true := by decide
theorem test_reservedC : reportsAndGoesOn 0xCFFF = true := by decide
theorem test_reservedD : reportsAndGoesOn 0xDFFF = true := by decide
theorem test_reservedE : reportsAndGoesOn 0xEFFF = true := by decide

/-! ### The run loop, status and loader (95_test_vectors.md, section 2) -/

theorem test_fetch_past_the_end : after (step (atPc 8192 0x1000 0)) (fun t => t.cause == .oorFetch && t.faultInfo == 0x2000) = true := by
  decide
theorem test_sentinel_before_limit : after (step (inst (limited 0) 0 0xFFFF)) (fun t => t.cause == .sentinel) = true := by decide
theorem test_step_limit_zero : after (step (inst (limited 0) 0 0x1000)) (fun t =>
    t.cause == .stepLimit && t.runState == .stopped && t.stepCount == 0 && t.pc == 0) = true := by decide
theorem test_status_after_sentinel : after (step (atPc 4 0xFFFF 4)) (fun t => t.status == 0x000A) = true := by decide
theorem test_status_after_reg1 : after (step (at0 0x1905)) (fun t => t.status == 0x0013 && t.faultInfo == 9) = true := by decide
theorem test_load_image_keeps_the_tail : (((at0 0x1005).setMem [(1, 0x1105)]).loadImage (some "4000".toList)).1.mem =
    [(0, 0x4000), (1, 0x1105)] := by decide
theorem test_load_image_prefixes : (State.reset.loadImage (some "0x1005\t0XfFfF".toList)).1.mem =
    [(0, 0x1005), (1, 0xFFFF)] := by decide
theorem test_load_image_empty : State.reset.loadImage (some []) = (State.reset, .loaded) := by decide
theorem test_parse_error : checkImage 8192 (some "1005 12345".toList) = .error (.parseError 1 "12345".toList) := rfl
theorem test_parse_error_bare_prefix : checkImage 8192 (some "0x".toList) = .error (.parseError 0 "0x".toList) := rfl
theorem test_image_too_large : checkImage 2 (some "1 2 3".toList) = .error (.imageTooLarge 3) := rfl
theorem test_assemble_load : assembleText "load R0, 0xF0  ; 0x10F0".toList = .word 0x10F0#16 := by decide
theorem test_assemble_add : assembleText "ADD R2,R2".toList = .word 0x2220#16 := by decide
theorem test_assemble_refuses_r8 : assembleText "STORE R8, 2".toList = .refused := by decide
theorem test_assemble_end : assembleText "END ; done".toList = .word 0xFFFF#16 := by decide
theorem test_assemble_word : assembleText ".word 0x5123".toList = .word 0x5123#16 := by decide

/-! ### Witnesses: states and operands that meet the hypotheses of the statements -/

theorem fetches_at0 (w : Word) (h : (at0 w).peek 0 = w) : (at0 w).Fetches w :=
  ⟨rfl, rfl, show 0 < 8192 by decide, h⟩

theorem executes_at0 (w : Word) (h : (at0 w).peek 0 = w) (hs : w ≠ sentinelWord) : (at0 w).Executes w :=
  ⟨fetches_at0 w h, hs, fun h => by cases h⟩

theorem test_witness_DecodeReadsBackEncode : (Instr.load 15#4 255#8).wellFormed = true := by decide
theorem test_witness_EveryWordHasOneClass : (at0 0xFFFF).Fetches sentinelWord := fetches_at0 _ (by decide)
theorem test_witness_IgnoredBits_add : (0x2010#16 ≠ sentinelWord ∧ 0x201F#16 ≠ sentinelWord) ∧
    opcodeOf 0x2010#16 = 0x2#4 ∧ opcodeOf 0x201F#16 = 0x2#4 ∧ reg1Of 0x2010#16 = reg1Of 0x201F#16 ∧
    reg2Of 0x2010#16 = reg2Of 0x201F#16 := by decide
theorem test_witness_IgnoredBits_jump : 0x4007#16 ≠ sentinelWord ∧ 0x4F07#16 ≠ sentinelWord ∧ opcodeOf 0x4007#16 = 0x4#4 ∧
    opcodeOf 0x4F07#16 = 0x4#4 ∧ valueOf 0x4007#16 = valueOf 0x4F07#16 := by decide
theorem test_witness_IgnoredBits_none : 0xF000#16 ≠ sentinelWord ∧ 0xFFFE#16 ≠ sentinelWord ∧
    opcodeOf 0xF000#16 = opcodeOf 0xFFFE#16 ∧ opcodeOf 0xF000#16 ≠ 0x1#4 ∧ opcodeOf 0xF000#16 ≠ 0x2#4 ∧
    opcodeOf 0xF000#16 ≠ 0x3#4 ∧ opcodeOf 0xF000#16 ≠ 0x4#4 := by decide
theorem test_witness_Assembler : assemble (.load 7 255) = some 0x17FF#16 ∧ assemble (.add 7 7) = some 0x2770#16 ∧
    assemble (.load 8 0) = none ∧ assemble (.jump 256) = none := by decide
theorem test_witness_register_fields : (7#4).toNat < 8 ∧ 8 ≤ (8#4).toNat ∧ 8 ≤ (15#4).toNat ∧ Reg.field .r7 = 7#4 := by decide
theorem test_witness_StoreWritesOneCell : (at0 0x35FF).mem.wf = true ∧ (absAddr 255#8).toNat < (at0 0x35FF).params.memWords := by
  decide
theorem test_witness_StoreWritesOneCell_data : (inst small 0 0x3080).params.memWords ≤ (absAddr 0x80#8).toNat := by decide
theorem test_witness_Jump : (at0 0x4003).params.jumpCompat = false ∧
    (inst { Params.neo5 with jumpCompat := true } 0 0x4003).params.jumpCompat = true := by decide
theorem test_witness_Halt_first : (at0 0xF000).Executes 0xF000#16 ∧ 0xF000 ≤ (0xF000#16).toNat :=
  ⟨executes_at0 _ (by decide) (by decide), by decide⟩
theorem test_witness_Halt_last : (at0 0xFFFE).Executes 0xFFFE#16 ∧ 0xF000 ≤ (0xFFFE#16).toNat :=
  ⟨executes_at0 _ (by decide) (by decide), by decide⟩
theorem test_witness_Reserved_member : Instr.reserved9 0#12 ∈ [Instr.reserved0 0#12, .reserved5 0#12, .reserved6 0#12,
    .reserved7 0#12, .reserved8 0#12, .reserved9 0#12] := by decide
theorem test_witness_Reserved_0 : (at0 0x0000).Executes 0x0000#16 ∧ (0x0000#16).toNat / 4096 = 0 :=
  ⟨executes_at0 _ (by decide) (by decide), by decide⟩
theorem test_witness_Reserved_E : (at0 0xEFFF).Executes 0xEFFF#16 ∧ 5 ≤ (0xEFFF#16).toNat / 4096 ∧ (0xEFFF#16).toNat / 4096 ≤ 14 :=
  ⟨executes_at0 _ (by decide) (by decide), by decide, by decide⟩
theorem test_witness_StepRunsTheDecodedInstruction : (at0 0x1005).Executes 0x1005#16 := executes_at0 _ (by decide) (by decide)

/-- The hypotheses of each clause of FirstFailingCheckEndsTheRun on the state `s`. -/
def runs (s : State) : Bool := s.params.ok && s.runState == .running
theorem test_witness_FirstCheck_fetch : runs (atPc 8192 0 0) = true ∧ (atPc 8192 0 0).params.memWords ≤ (atPc 8192 0 0).pc.toNat := by
  decide
theorem test_witness_FirstCheck_sentinel : runs (at0 0xFFFF) = true ∧ (at0 0xFFFF).peek 0 = sentinelWord := by decide
theorem test_witness_FirstCheck_limit : runs (inst (limited 0) 0 0x1000) = true ∧
    (inst (limited 0) 0 0x1000).peek 0 ≠ sentinelWord ∧
    (inst (limited 0) 0 0x1000).params.stepLimit = some (inst (limited 0) 0 0x1000).stepCount := by decide
theorem test_witness_FirstCheck_reg1 : runs (at0 0x3800) = true ∧ (0x3800#16).toNat / 4096 = 3 ∧
    8 ≤ (0x3800#16).toNat / 256 % 16 := by decide
theorem test_witness_FirstCheck_reg2 : runs (at0 0x2780) = true ∧ (0x2780#16).toNat / 4096 = 2 ∧
    (0x2780#16).toNat / 256 % 16 < 8 ∧ 8 ≤ (0x2780#16).toNat / 16 % 16 := by decide
theorem test_witness_FirstCheck_data : runs (inst small 0 0x3080) = true ∧ (0x3080#16).toNat / 4096 = 3 ∧
    (0x3080#16).toNat / 256 % 16 < 8 ∧ (inst small 0 0x3080).params.memWords ≤ (0x3080#16).toNat % 256 := by decide
theorem test_witness_FirstCheck_pass : runs (inst small 0 0x377F) = true ∧ (0x377F#16).toNat / 256 % 16 < 8 ∧
    (0x377F#16).toNat % 256 < (inst small 0 0x377F).params.memWords := by decide
theorem test_witness_FetchPast_last_cell : (atPc 8191 0x1000 0).Executes 0x1000#16 ∧
    after (step (atPc 8191 0x1000 0)) (fun t => t.runState == .running && decide (8192 ≤ t.pc.toNat)) = true :=
  ⟨⟨⟨by decide, rfl, by decide, by decide⟩, by decide, fun h => by cases h⟩, by decide⟩
theorem test_witness_FetchPast_jump : (inst small 0 0x4080).Executes 0x4080#16 ∧
    after (step (inst small 0 0x4080)) (fun t => t.runState == .running && decide (128 ≤ t.pc.toNat)) = true :=
  ⟨⟨⟨by decide, rfl, by decide, by decide⟩, by decide, fun h => by cases h⟩, by decide⟩
theorem test_witness_StoreAddress : (inst small 0 0x3080).Executes 0x3080#16 :=
  ⟨⟨by decide, rfl, by decide, by decide⟩, by decide, fun h => by cases h⟩
theorem test_witness_StoreAddress_8192 : (at0 0x30FF).params.memWords = 8192 ∧ (at0 0x30FF).cause ≠ .oorData ∧
    after (step (at0 0x30FF)) (fun _ => true) = true := by decide
theorem test_witness_no_step : step State.reset = .next State.reset ∧ ¬ ∃ w, State.reset.Executes w :=
  ⟨rfl, fun ⟨_, h⟩ => by cases h.fetches.running⟩
theorem test_witness_ErrorsArePrecise : (at0 0x1905).runState = .running ∧
    after (step (at0 0x1905)) (fun t => t.runState == .stopped) = true := by decide
theorem test_witness_RunStateMoves : (at0 0xF000).runState = .running ∧ State.reset.runState ≠ .running ∧
    after (step (at0 0xF000)) (fun t => t.runState == .halted) = true := by decide
theorem test_witness_host_start : hostCommand .start State.reset = .next (State.reset.startRun, .started) := rfl
theorem test_witness_QuietStatesHold : State.reset.params.ok = true ∧ State.reset.runState ≠ .running ∧
    hostCommand .dumpRegisters State.reset = .next (State.reset, .registers [0, 0, 0, 0, 0, 0, 0, 0]) :=
  ⟨by decide, by decide, rfl⟩
theorem test_witness_EndedRun : (at0 0xFFFF).runState = .running ∧ (at0 0xFFFF).cause = .none ∧
    after (step (at0 0xFFFF)) (fun t => t.runState != .running) = true := by decide
theorem test_witness_OnlyStore : ((at0 0x30FF).setReg .r0 7).mem.wf = true ∧
    after (step ((at0 0x30FF).setReg .r0 7)) (fun t => t.peek 255 != ((at0 0x30FF).setReg .r0 7).peek 255) = true := by decide
theorem test_witness_OnlyLoader : (State.reset.loadImage (some ['1'])).1.mem ≠ State.reset.mem := by decide
theorem test_witness_OnlyLoadAndAdd : after (step (at0 0x1005)) (fun t => t.x .r0 != (at0 0x1005).x .r0) = true := by decide
theorem test_witness_ExecAndStepAnswerNextStates : State.reset.params.ok = true ∧
    (State.powerOn { Params.neo5 with memWords := 0 }).params.ok = false := by decide
theorem test_witness_StoredWordIsFetchedNext : ((at0 0x3101).mem.wf = true ∧ opcodeOf 0x3101#16 = 0x3#4 ∧
    reg1Of 0x3101#16 = Reg.field .r1 ∧ (valueOf 0x3101#16).toNat = (at0 0x3101).pc.toNat + 1 ∧
    (valueOf 0x3101#16).toNat < (at0 0x3101).params.memWords) ∧ (at0 0x3101).Executes 0x3101#16 :=
  ⟨by decide, executes_at0 _ (by decide) (by decide)⟩
theorem test_witness_JumpToItself : ((at0 0x4000).cause = .none ∧ (at0 0x4000).params.stepLimit = none ∧
    (at0 0x4000).params.jumpCompat = false ∧ opcodeOf 0x4000#16 = 0x4#4 ∧
    (valueOf 0x4000#16).toNat = (at0 0x4000).pc.toNat) ∧ (at0 0x4000).Executes 0x4000#16 :=
  ⟨by decide, executes_at0 _ (by decide) (by decide)⟩
theorem test_witness_WidthsAgree : (at0 0x1005).params.regWidth = .w16 ∧
    ∀ k t, k < 1 → runSteps k (at0 0x1005) = .next t → ¬ t.AddReaches13 := by
  refine ⟨rfl, fun k t hk ht => ?_⟩
  obtain rfl : k = 0 := by omega
  cases ht
  rintro ⟨w, d, r, hw, ho, -⟩
  have hword : (at0 0x1005).peek (at0 0x1005).pc.toNat = w := hw.fetches.word
  subst hword
  exact absurd ho (by decide)
theorem test_witness_invariant_running : (at0 0x1005).Inv ∧ after (step (at0 0x1005)) (fun _ => true) = true := by
  refine ⟨⟨by decide, ?_, ?_, ⟨by decide, by decide⟩, ⟨.inr rfl, rfl⟩, fun l h => by cases h⟩, by decide⟩
  · intro r
    cases r <;> decide
  · unfold State.pcBounded
    decide
theorem test_witness_invariant_host : (State.reset.setMem [(0, 0x1005)]).Inv ∧
    hostCommand .start (State.reset.setMem [(0, 0x1005)]) =
      .next ((State.reset.setMem [(0, 0x1005)]).startRun, .started) := by
  refine ⟨⟨by decide, ?_, ?_, ⟨by decide, by decide⟩, ⟨.inl rfl, rfl⟩, fun l h => by cases h⟩, rfl⟩
  · intro r
    cases r <;> decide
  · unfold State.pcBounded
    decide
theorem test_witness_Canonical : Memory.wf [(3, 1#16)] = true ∧ ∀ a, Memory.read [(3, 1#16)] a = Memory.read [(3, 1#16)] a :=
  ⟨by decide, fun _ => rfl⟩
theorem test_witness_RunsWithoutAStep : (State.reset.setMem [(0, sentinelWord)]).peek 0 = sentinelWord ∧
    (State.powerOn (limited 0)).params.ok = true ∧ (State.powerOn (limited 0)).peek 0 ≠ sentinelWord ∧
    (State.powerOn (limited 0)).params.stepLimit = some 0 ∧ after (step State.reset.startRun) (fun _ => true) = true := by decide
theorem test_witness_HostHasNoMove : (at0 0).runState = .running ∧ HostCommand.start ≠ .readStatus := by decide
theorem test_witness_LoadImage : State.reset.runState ≠ .running ∧ State.reset.mem.wf = true ∧
    (imageTokens "1005 FFFF".toList).map parseToken = [0x1005#16, 0xFFFF#16].map some ∧
    [0x1005#16, 0xFFFF#16].length ≤ State.reset.params.memWords := by decide
theorem test_witness_FailedLoad : imageTokens "1005 GHIJ".toList = ["1005".toList] ++ "GHIJ".toList :: [] ∧
    parseToken "1005".toList ≠ none ∧ parseToken "GHIJ".toList = none := by decide
theorem test_witness_FailedLoad_both : imageTokens "1 G 2".toList = ["1".toList] ++ "G".toList :: ["2".toList] ∧
    (State.powerOn { small with memWords := 2 }).params.memWords < (imageTokens "1 G 2".toList).length := by decide
theorem test_witness_Tokens : hexDigit 'f' = some 15 ∧ hexDigit 'F' = some 15 ∧ hexDigit '0' = some 0 ∧ hexDigit 'g' = none := by
  decide
theorem test_witness_Separated :
    ImageForm [' '] [(['1', '0'], ['\t', '\r']), (['1'], ['\n'])] ['F', 'f'] := by
  constructor <;> simp [isImageSpace]
theorem test_tokens_mixed_whitespace : imageTokens " 10\t\r1\nFf".toList = [['1', '0'], ['1'], ['F', 'f']] := by decide
theorem test_witness_Tokens_three_digits : (∀ p ∈ [('1', 1), ('a', 10), ('F', 15)], hexDigit p.1 = some p.2) ∧
    parseToken ['1', 'a', 'F'] = some 0x1AF#16 ∧ parseToken ['f', '0'] = some 0xF0#16 := by decide
theorem test_witness_HostReads : State.reset.runState ≠ .running ∧ 8191 + 1 ≤ State.reset.params.memWords ∧
    State.reset.params.memWords < 8192 + 1 := by decide
theorem test_witness_classes : (instructionDecoder 0x1000#16).opLoad = true ∧ (instructionDecoder 0x2000#16).opAdd = true ∧
    (instructionDecoder 0x3000#16).opStore = true ∧ (instructionDecoder 0x4000#16).opJump = true ∧
    (instructionDecoder 0xF000#16).opHalt = true ∧ (instructionDecoder 0xE000#16).opUnknown = true := by decide
theorem test_witness_CommitEnables_fault : (at0 0x1800).Executes 0x1800#16 ∧
    StepFaults (at0 0x1800).params.memWords 0x1800#16 :=
  ⟨executes_at0 _ (by decide) (by decide), .inl (by decide)⟩
theorem test_witness_CommitEnables_fault_reg2 : StepFaults 8192 0x2780#16 := .inr (.inl (by decide))
theorem test_witness_CommitEnables_fault_data : StepFaults 128 0x3080#16 := .inr (.inr (by decide))
theorem test_witness_ValueAbove255 : after (step ((at0 0x2000).setReg .r0 200)) (fun t => t.x .r0 == 400) = true := by decide
theorem test_witness_CommitEnables : (at0 0xF000).Executes 0xF000#16 ∧
    ¬ StepFaults (at0 0xF000).params.memWords 0xF000#16 :=
  ⟨executes_at0 _ (by decide) (by decide), by unfold StepFaults; decide⟩
theorem test_register_commit_needs_commit : registerCommit RegFile.zero true 3#4 (some 7#16) false = RegFile.zero ∧
    registerCommit RegFile.zero true 3#4 (some 7#16) true = RegFile.zero.set .r3 7#16 := by decide
theorem test_witness_encodings : (0x17FF#16).toNat / 4096 = 1 ∧ (0x27FF#16).toNat / 4096 = 2 ∧ (0x37FF#16).toNat / 4096 = 3 ∧
    (0x4FFF#16).toNat / 4096 = 4 := by decide

end Sys2Proof.Tests
end

section
/-! PROOFS. Every instruction and, under admitted parameters, every iteration of the run loop answers a next state: each
access to memory stands behind the check that keeps it in range (00_scope.md R12, 20_memory.md R65). -/

namespace Sys2Proof.Machine

/-! ### The instructions that check an operand -/

theorem execLoad_answers_next (reg1 : BitVec 4) (value : BitVec 8) (s : State) :
    ∃ t, execLoad reg1 value s = .next t := by
  simp only [execLoad_next]
  cases Reg.ofField reg1 with
  | none => exact ⟨_, .inl ⟨rfl, rfl⟩⟩
  | some d => exact ⟨_, .inr ⟨d, rfl, rfl⟩⟩

theorem execAdd_answers_next (reg1 reg2 ignored : BitVec 4) (s : State) :
    ∃ t, execAdd reg1 reg2 ignored s = .next t := by
  simp only [execAdd_next]
  cases Reg.ofField reg1 with
  | none => exact ⟨_, .inl ⟨rfl, rfl⟩⟩
  | some d =>
    cases Reg.ofField reg2 with
    | none => exact ⟨_, .inr (.inl ⟨d, rfl, rfl, rfl⟩)⟩
    | some r => exact ⟨_, .inr (.inr ⟨d, r, rfl, rfl, rfl⟩)⟩

/-- The address check stands before the write, so `MemWrite` never meets an address outside memory. -/
theorem execStore_answers_next (reg1 : BitVec 4) (value : BitVec 8) (s : State) :
    ∃ t, execStore reg1 value s = .next t := by
  simp only [execStore_next]
  cases Reg.ofField reg1 with
  | none => exact ⟨_, .inl ⟨rfl, rfl⟩⟩
  | some r =>
    rcases Nat.lt_or_ge (absAddr value).toNat s.params.memWords with hin | hout
    · exact ⟨_, .inr (.inr ⟨r, rfl, hin, rfl⟩)⟩
    · exact ⟨_, .inr (.inl ⟨r, rfl, hout, rfl⟩)⟩

/-- The dispatch table is total: every constructor's meaning answers a next state. -/
theorem exec_answers_next (i : Instr) (s : State) : ∃ t, exec i s = .next t := by
  cases i with
  | load reg1 value => exact execLoad_answers_next reg1 value s
  | add reg1 reg2 ignored => exact execAdd_answers_next reg1 reg2 ignored s
  | store reg1 value => exact execStore_answers_next reg1 value s
  | jump ignored value => exact ⟨_, execJump_eq ignored value s⟩
  | halt ignored => exact ⟨_, execHalt_eq ignored s⟩
  | endOfProgram => exact ⟨_, execEndOfProgram_eq s⟩
  | reserved0 | reserved5 | reserved6 | reserved7 | reserved8 | reserved9
  | reservedA | reservedB | reservedC | reservedD | reservedE => exact ⟨_, unknownOpcode_eq s⟩

/-! ### The run loop -/

/-- The bounds check of the fetch stands before the read, so `MemRead` never meets an address outside memory. -/
theorem nextIssue_answers_next {s : State} (hp : s.params.ok = true) : ∃ issue, nextIssue s = .next issue := by
  unfold nextIssue
  rw [if_pos hp]
  cases s.runState with
  | running =>
    by_cases hout : s.params.memWords ≤ s.pc.toNat
    · exact ⟨.endRun (.outOfRange .fetch s.pc), by simp [State.fetchOutOfRange, hout]⟩
    · have hread : s.memRead s.pc = .next (s.peek s.pc.toNat) :=
        State.memRead_eq_next.2 ⟨Nat.lt_of_not_le hout, rfl⟩
      exact ⟨issueWord (s.peek s.pc.toNat) s, by simp [State.fetchOutOfRange, hout, hread]⟩
  | idle | halted | stopped => exact ⟨.hold, rfl⟩

theorem nextIssue_refuses_inadmissible {s : State} (hp : s.params.ok = false) :
    nextIssue s = .refused .inadmissibleParams := by
  simp [nextIssue, hp]

theorem step_answers_next {s : State} (hp : s.params.ok = true) : ∃ t, step s = .next t := by
  obtain ⟨issue, hi⟩ := nextIssue_answers_next hp
  simp only [step, hi]
  cases issue with
  | hold => exact ⟨s, rfl⟩
  | endRun o => exact ⟨s.stop o, rfl⟩
  | run i t => exact exec_answers_next i t

theorem step_refuses_inadmissible {s : State} (hp : s.params.ok = false) : step s = .refused .inadmissibleParams := by
  simp [step, nextIssue_refuses_inadmissible hp]

/-- Settles O26: the dispatch and the run loop are total under admitted parameters, and `step` refuses any others by name. -/
theorem execAndStepAnswerNextStates : Obligations.ExecAndStepAnswerNextStates :=
  ⟨exec_answers_next, fun _ => step_answers_next, fun _ => step_refuses_inadmissible⟩

end Sys2Proof.Machine
end

section
/-! PROOFS. What the step on an executed word can do, said once: it ends the run by a fault of the word, or it makes the one
effect of the word's opcode (30_encoding.md R88, 42_sequencer_and_host.md R144). -/

namespace Sys2Proof.Machine

/-! ### The faults and the effect of a word -/

/-- The OutOfRange that the step on the word `w` raises in a memory of `n` cells, in the order of 60_exceptions.md R192. -/
inductive FaultsWith (n : Nat) (w : Word) : RunEnd → Prop where
  | reg1 : opcodeOf w = 0x1#4 ∨ opcodeOf w = 0x2#4 ∨ opcodeOf w = 0x3#4 → Reg.ofField (reg1Of w) = none →
      FaultsWith n w (.outOfRange .reg1 (fieldInfo (reg1Of w)))
  | reg2 {d : Reg} : opcodeOf w = 0x2#4 → reg1Of w = d.field → Reg.ofField (reg2Of w) = none →
      FaultsWith n w (.outOfRange .reg2 (fieldInfo (reg2Of w)))
  | data {r : Reg} : opcodeOf w = 0x3#4 → reg1Of w = r.field → n ≤ (absAddr (valueOf w)).toNat →
      FaultsWith n w (.outOfRange .data (absAddr (valueOf w)))

/-- What the meaning of the word `w`, the sentinel apart, makes of the state `s`. -/
inductive WordEffect (w : Word) (s : State) : State → Prop where
  | fault {o : RunEnd} : FaultsWith s.params.memWords w o → WordEffect w s (s.stop o)
  | load {d : Reg} : opcodeOf w = 0x1#4 → reg1Of w = d.field →
      WordEffect w s (s.setReg d (immediate (valueOf w))).retire
  | add {d r : Reg} : opcodeOf w = 0x2#4 → reg1Of w = d.field → reg2Of w = r.field →
      WordEffect w s (s.setReg d (addWrap s.params.regWidth (s.x d) (s.x r))).retire
  | store {r : Reg} : opcodeOf w = 0x3#4 → reg1Of w = r.field → (absAddr (valueOf w)).toNat < s.params.memWords →
      WordEffect w s (s.setMem (s.mem.write (absAddr (valueOf w)).toNat (s.x r))).retire
  | jump : opcodeOf w = 0x4#4 → WordEffect w s (s.setPc (jumpTarget s.params (valueOf w))).countStep
  | halt : opcodeOf w = 0xF#4 → WordEffect w s (s.countStep.stop .haltOpcode)
  | unknown : opcodeOf w ≠ 0x1#4 → opcodeOf w ≠ 0x2#4 → opcodeOf w ≠ 0x3#4 → opcodeOf w ≠ 0x4#4 →
      opcodeOf w ≠ 0xF#4 → WordEffect w s s.report.retire

theorem FaultsWith.runState_eq_stopped {n : Nat} {w : Word} {o : RunEnd} (h : FaultsWith n w o) :
    o.runState = .stopped := by
  cases h <;> rfl

theorem wordEffect_of_execLoad {w : Word} {s t : State} (hop : opcodeOf w = 0x1#4)
    (h : execLoad (reg1Of w) (valueOf w) s = .next t) : WordEffect w s t := by
  rcases execLoad_next.1 h with ⟨hnone, rfl⟩ | ⟨d, hd, rfl⟩
  · exact .fault (.reg1 (.inl hop) hnone)
  · exact .load hop (Reg.field_of_ofField hd)

theorem wordEffect_of_execAdd {w : Word} {s t : State} (hop : opcodeOf w = 0x2#4)
    (h : execAdd (reg1Of w) (reg2Of w) (low4Of w) s = .next t) : WordEffect w s t := by
  rcases (execAdd_next _).1 h with ⟨hnone, rfl⟩ | ⟨d, hd, hnone, rfl⟩ | ⟨d, r, hd, hr, rfl⟩
  · exact .fault (.reg1 (.inr (.inl hop)) hnone)
  · exact .fault (.reg2 hop (Reg.field_of_ofField hd) hnone)
  · exact .add hop (Reg.field_of_ofField hd) (Reg.field_of_ofField hr)

theorem wordEffect_of_execStore {w : Word} {s t : State} (hop : opcodeOf w = 0x3#4)
    (h : execStore (reg1Of w) (valueOf w) s = .next t) : WordEffect w s t := by
  rcases execStore_next.1 h with ⟨hnone, rfl⟩ | ⟨r, hr, hout, rfl⟩ | ⟨r, hr, hin, rfl⟩
  · exact .fault (.reg1 (.inr (.inr hop)) hnone)
  · exact .fault (.data hop (Reg.field_of_ofField hr) hout)
  · exact .store hop (Reg.field_of_ofField hr) hin

theorem opcodeOf_eq_of_toNat {w : Word} {n : Nat} (h : (opcodeOf w).toNat = n) : opcodeOf w = BitVec.ofNat 4 n := by
  rw [← h, BitVec.ofNat_toNat, BitVec.setWidth_eq]

/-- The case split follows the arms of `decodeOpcode`, the map of 30_encoding.md R88. -/
theorem wordEffect_of_exec {w : Word} {s t : State} (h : exec (decodeOpcode w) s = .next t) : WordEffect w s t := by
  unfold decodeOpcode at h
  split at h
  case h_2 hop => exact wordEffect_of_execLoad (opcodeOf_eq_of_toNat hop) h
  case h_3 hop => exact wordEffect_of_execAdd (opcodeOf_eq_of_toNat hop) h
  case h_4 hop => exact wordEffect_of_execStore (opcodeOf_eq_of_toNat hop) h
  case h_5 hop =>
    cases h
    exact .jump (opcodeOf_eq_of_toNat hop)
  case h_16 =>
    cases h
    have hlt := (opcodeOf w).isLt
    have hF : (opcodeOf w).toNat = 15 := by grind
    exact .halt (opcodeOf_eq_of_toNat hF)
  all_goals
    cases h
    rename_i hop
    refine .unknown ?_ ?_ ?_ ?_ ?_ <;> simp [opcodeOf_eq_of_toNat hop]

/-! ### One iteration of the run loop -/

/-- An executed word is dispatched on the state that latched it (42_sequencer_and_host.md R143, R144). -/
theorem step_of_executes {s : State} {w : Word} (h : s.Executes w) :
    step s = exec (decodeOpcode w) (s.latchIr w) := by
  obtain ⟨⟨hok, hrun, hin, hw⟩, hsentinel, hlimit⟩ := h
  have hread : s.memRead s.pc = .next w := State.memRead_eq_next.2 ⟨hin, hw.symm⟩
  have hbelow : s.atStepLimit = false := by
    rwa [Ne, ← State.atStepLimit_iff, Bool.not_eq_true] at hlimit
  simp [step, nextIssue, hok, hrun, State.fetchOutOfRange, Nat.not_le.2 hin, hread, issueWord, hsentinel, hbelow, decode]

theorem wordEffect_of_executes {s t : State} {w : Word} (h : s.Executes w) (hstep : step s = .next t) :
    WordEffect w (s.latchIr w) t :=
  wordEffect_of_exec (step_of_executes h ▸ hstep)

/-- An executed word has an effect, and the step makes it. -/
theorem exists_wordEffect_of_executes {s : State} {w : Word} (h : s.Executes w) :
    ∃ t, step s = .next t ∧ WordEffect w (s.latchIr w) t := by
  obtain ⟨t, ht⟩ := step_answers_next h.fetches.params
  exact ⟨t, ht, wordEffect_of_executes h ht⟩

/-- The three kinds of iteration (42_sequencer_and_host.md R143): hold, end the run before a step, execute a word. -/
theorem step_holds_or_ends_or_executes {s t : State} (h : step s = .next t) :
    (s.runState ≠ .running ∧ t = s) ∨
    (∃ o, (s.stop o).statusOk ∧ t = s.stop o) ∨
    (∃ w, s.Executes w ∧ WordEffect w (s.latchIr w) t) := by
  obtain ⟨hok, hcases⟩ := step_next h
  rcases hcases with hhold | ⟨-, hout, rfl⟩ | ⟨-, -, -, rfl⟩ | ⟨-, -, -, hlimit, rfl⟩ |
    ⟨hrun, hin, hsentinel, hlimit, -⟩
  · exact .inl hhold
  · exact .inr (.inl ⟨.outOfRange .fetch s.pc, ⟨rfl, rfl, hout⟩, rfl⟩)
  · exact .inr (.inl ⟨.sentinel, ⟨rfl, rfl⟩, rfl⟩)
  · exact .inr (.inl ⟨.stepLimit, ⟨rfl, rfl, hlimit⟩, rfl⟩)
  · have hexec : s.Executes (s.peek s.pc.toNat) := ⟨⟨hok, hrun, hin, rfl⟩, hsentinel, hlimit⟩
    exact .inr (.inr ⟨_, hexec, wordEffect_of_executes hexec h⟩)

/-- An iteration that executes no word leaves the state, or ends the run and changes nothing else. -/
theorem step_of_not_executes {s t : State} (h : step s = .next t) (hno : ¬ ∃ w, s.Executes w) :
    t = s ∨ ∃ o, t = s.stop o := by
  rcases step_holds_or_ends_or_executes h with ⟨-, rfl⟩ | ⟨o, -, rfl⟩ | ⟨w, hw, -⟩
  · exact .inl rfl
  · exact .inr ⟨o, rfl⟩
  · exact absurd ⟨w, hw⟩ hno

end Sys2Proof.Machine
end

section
/-! PROOFS. How one step moves `pc` (10_state.md R29), `STEP_COUNT` (R39) and the registers (R23). -/

namespace Sys2Proof.Machine

theorem jumpTarget_toNat (p : Params) (v : BitVec 8) :
    (jumpTarget p v).toNat = v.toNat + if p.jumpCompat then 1 else 0 := by
  have hv := v.isLt
  unfold jumpTarget
  split
  · rw [BitVec.toNat_add, absAddr_toNat]
    simp
    omega
  · exact absAddr_toNat v

/-- The new `pc` of a word's effect, by the word's opcode (10_state.md R29). -/
theorem WordEffect.pc_follows_table {w : Word} {s t : State} (h : WordEffect w s t) (hrun : s.runState = .running) :
    (t.runState = .stopped → t.pc = s.pc) ∧
    (t.runState ≠ .stopped →
      (opcodeOf w ≠ 0x4#4 → opcodeOf w ≠ 0xF#4 → t.pc = s.pc + 1) ∧
      (opcodeOf w = 0x4#4 → t.pc = jumpTarget s.params (valueOf w)) ∧
      (opcodeOf w = 0xF#4 → t.pc = s.pc)) := by
  cases h with
  | fault hfault => simp [hfault.runState_eq_stopped]
  | load hop | add hop | store hop => simp [hop, hrun]
  | jump hop => simp [hop, hrun]
  | halt hop => simp [hop]
  | unknown _ _ _ hjump hhalt => simp [hrun, hjump, hhalt]

/-- Settles O18: an executed word moves `pc` by its effect, and any other iteration leaves it. -/
theorem programCounterFollowsItsTable : Obligations.ProgramCounterFollowsItsTable := by
  refine ⟨fun s w hw => ?_, fun s t hstep hno => ?_⟩
  · obtain ⟨t, hstep, heffect⟩ := exists_wordEffect_of_executes hw
    obtain ⟨hstopped, hgoes⟩ := heffect.pc_follows_table hw.fetches.running
    have hop (o : BitVec 4) : w.toNat / 4096 = o.toNat ↔ opcodeOf w = o := by
      rw [← opcodeOf_toNat, BitVec.toNat_inj]
    refine ⟨t, hstep, hstopped, fun ht => ?_⟩
    obtain ⟨hnext, hjump, hhalt⟩ := hgoes ht
    refine ⟨fun h4 h15 => hnext ?_ ?_, fun h4 hcompat => ?_, fun h4 hcompat => ?_, fun h15 => hhalt ((hop 0xF#4).1 h15)⟩
    · exact fun h => h4 ((hop 0x4#4).2 h)
    · exact fun h => h15 ((hop 0xF#4).2 h)
    all_goals
      rw [hjump ((hop 0x4#4).1 h4), jumpTarget_toNat, valueOf_toNat]
      simp [hcompat]
  · rcases step_of_not_executes hstep hno with rfl | ⟨o, rfl⟩ <;> rfl

theorem WordEffect.counts_when_completed {w : Word} {s t : State} (h : WordEffect w s t) (hrun : s.runState = .running) :
    (t.runState = .stopped → t.stepCount = s.stepCount) ∧ (t.runState ≠ .stopped → t.stepCount = s.stepCount + 1) := by
  cases h with
  | fault hfault => simp [hfault.runState_eq_stopped]
  | load | add | store | jump | unknown => simp [hrun]
  | halt => simp [RunEnd.runState]

/-- Settles O19: an executed word counts by its effect, and any other iteration does not. -/
theorem stepCountCountsCompletedSteps : Obligations.StepCountCountsCompletedSteps := by
  refine ⟨fun s w hw => ?_, fun s t hstep hno => ?_⟩
  · obtain ⟨t, hstep, heffect⟩ := exists_wordEffect_of_executes hw
    exact ⟨t, hstep, heffect.counts_when_completed hw.fetches.running⟩
  · rcases step_of_not_executes hstep hno with rfl | ⟨o, rfl⟩ <;> rfl

theorem State.eq_of_x_setReg_ne {s : State} {d r : Reg} {v : Word} (h : (s.setReg d v).x r ≠ s.x r) : r = d :=
  not_imp_comm.1 (fun hne => State.x_setReg_other s hne v) h

/-- Of a word's effects only LOAD's and ADD's write a register, the one that `reg1` names. -/
theorem WordEffect.writes_only_reg1 {w : Word} {s t : State} {r : Reg} (h : WordEffect w s t) (hne : t.x r ≠ s.x r) :
    (opcodeOf w = 0x1#4 ∨ opcodeOf w = 0x2#4) ∧ reg1Of w = r.field := by
  cases h with
  | load hop hd => exact ⟨.inl hop, State.eq_of_x_setReg_ne hne ▸ hd⟩
  | add hop hd => exact ⟨.inr hop, State.eq_of_x_setReg_ne hne ▸ hd⟩
  | fault | store | jump | halt | unknown => exact absurd rfl hne

theorem hostCommand_keeps_regs {c : HostCommand} {s t : State} {a : HostReply} (h : hostCommand c s = .next (t, a)) :
    t.regs = s.regs := by
  rcases hostCommand_next h with rfl | ⟨-, -, rfl⟩ | ⟨-, ws, -, rfl⟩ <;> rfl

/-- Settles O25: by the three kinds of iteration, of which only the executed word's effect reaches a register. -/
theorem onlyLoadAndAddWriteRegisters : Obligations.OnlyLoadAndAddWriteRegisters := by
  refine ⟨fun s t r hstep hne => ?_, fun _ _ _ _ => hostCommand_keeps_regs⟩
  rcases step_holds_or_ends_or_executes hstep with ⟨-, rfl⟩ | ⟨o, -, rfl⟩ | ⟨w, hw, heffect⟩
  · exact absurd rfl hne
  · exact absurd rfl hne
  · exact ⟨w, hw, heffect.writes_only_reg1 hne⟩

end Sys2Proof.Machine
end

section
/-! PROOFS. The invariant of a step boundary, kept by each operation on the state and so by every step. -/

namespace Sys2Proof.Machine

/-! ### What a run in progress makes of the status -/

/-- During a run there is no cause and no detail yet (10_state.md R37, R38). -/
theorem State.statusOk_iff_of_running {s : State} (hrun : s.runState = .running) :
    s.statusOk ↔ s.cause = .none ∧ s.faultInfo = 0 := by
  unfold State.statusOk
  cases hc : s.cause <;> simp [hrun]

/-- During a run the agreement speaks of no `pc` and no step count. -/
theorem State.statusOk_of_same_status {s t : State} (hrun : s.runState = .running) (h : s.statusOk)
    (hstate : t.runState = s.runState) (hcause : t.cause = s.cause) (hinfo : t.faultInfo = s.faultInfo) : t.statusOk := by
  rw [State.statusOk_iff_of_running (hstate.trans hrun), hcause, hinfo]
  exact (State.statusOk_iff_of_running hrun).1 h

theorem two_pow_8_lt_two_pow_regBits (w : RegWidth) : 2 ^ 8 < 2 ^ regBits w := by
  cases w <;> decide

theorem addWrap_lt (w : RegWidth) (a b : Word) : (addWrap w a b).toNat < 2 ^ regBits w := by
  rw [addWrap_toNat]
  exact Nat.mod_lt _ (Nat.two_pow_pos _)

theorem immediate_lt (w : RegWidth) (v : BitVec 8) : (immediate v).toNat < 2 ^ regBits w := by
  rw [immediate_toNat]
  exact v.isLt.trans (two_pow_8_lt_two_pow_regBits w)

theorem Params.memWords_le_of_ok {p : Params} (h : p.ok = true) : p.memWords ≤ 65535 := by
  simp only [Params.ok, Bool.and_eq_true, decide_eq_true_eq] at h
  exact h.2

theorem jumpTarget_le (p : Params) (v : BitVec 8) : (jumpTarget p v).toNat ≤ 256 := by
  have hv := v.isLt
  rw [jumpTarget_toNat]
  split <;> omega

/-! ### The operations on the state -/

theorem State.Inv.latchIr {s : State} (h : s.Inv) (w : Word) : (s.latchIr w).Inv :=
  ⟨h.params, h.regs, h.pc, h.mem, h.status, h.count⟩

theorem State.Inv.report {s : State} (h : s.Inv) : s.report.Inv :=
  ⟨h.params, h.regs, h.pc, h.mem, h.status, h.count⟩

theorem State.Inv.setReg {s : State} (h : s.Inv) (r : Reg) {v : Word} (hv : v.toNat < 2 ^ regBits s.params.regWidth) :
    (s.setReg r v).Inv := by
  refine ⟨h.params, fun q => ?_, h.pc, h.mem, h.status, h.count⟩
  by_cases hq : q = r
  · subst hq
    rwa [State.x_setReg_same]
  · rw [State.x_setReg_other s hq]
    exact h.regs q

theorem State.Inv.writeCell {s : State} (h : s.Inv) {a : Nat} (ha : a < s.params.memWords) (v : Word) :
    (s.setMem (s.mem.write a v)).Inv := by
  obtain ⟨hwf, hwithin⟩ := h.mem
  exact ⟨h.params, h.regs, h.pc, ⟨Memory.wf_write _ hwf a v, Memory.within_write _ _ hwithin a ha v⟩, h.status, h.count⟩

/-- The end of a run keeps everything but the status, which is to agree. -/
theorem State.Inv.stop {s : State} (h : s.Inv) {o : RunEnd} (hstatus : (s.stop o).statusOk) : (s.stop o).Inv :=
  ⟨h.params, h.regs, h.pc, h.mem, hstatus, h.count⟩

theorem State.Inv.setPc {s : State} (h : s.Inv) (hrun : s.runState = .running) {a : Word}
    (ha : a.toNat ≤ max s.params.memWords 256) : (s.setPc a).Inv := by
  have hstatus : (s.setPc a).statusOk :=
    State.statusOk_of_same_status hrun h.status rfl rfl rfl
  exact ⟨h.params, h.regs, ha, h.mem, hstatus, h.count⟩

/-- Below the limit one more step is within it (10_state.md R39). -/
theorem State.Inv.countStep {s : State} (h : s.Inv) (hrun : s.runState = .running)
    (hbelow : s.params.stepLimit ≠ some s.stepCount) : s.countStep.Inv := by
  have hstatus : s.countStep.statusOk :=
    State.statusOk_of_same_status hrun h.status rfl rfl rfl
  refine ⟨h.params, h.regs, h.pc, h.mem, hstatus, fun l hl => ?_⟩
  have hle : s.stepCount.toNat ≤ l.toNat := h.count l hl
  have hne : s.stepCount ≠ l := fun heq => hbelow (heq ▸ hl)
  rw [State.countStep_stepCount]
  bv_omega

/-- Inside memory the next address is at most `N` (10_state.md R30). -/
theorem State.Inv.retire {s : State} (h : s.Inv) (hrun : s.runState = .running)
    (hin : s.pc.toNat < s.params.memWords) (hbelow : s.params.stepLimit ≠ some s.stepCount) : s.retire.Inv := by
  have hle := Params.memWords_le_of_ok h.params
  have hnext : (s.pc + 1).toNat ≤ max s.params.memWords 256 := by
    rw [BitVec.toNat_add]
    simp
    omega
  exact (h.setPc hrun hnext).countStep hrun hbelow

/-! ### The step -/

theorem fieldInfo_bounds {f : BitVec 4} (h : Reg.ofField f = none) :
    8 ≤ (fieldInfo f).toNat ∧ (fieldInfo f).toNat ≤ 15 := by
  have hlow := (Reg.ofField_eq_none f).1 h
  have hhigh := f.isLt
  simp only [fieldInfo, BitVec.toNat_setWidth]
  omega

/-- The detail a fault records is the one that its cause asks for (10_state.md R38). -/
theorem FaultsWith.statusOk_stop {s : State} {w : Word} {o : RunEnd} (h : FaultsWith s.params.memWords w o) :
    (s.stop o).statusOk := by
  cases h with
  | reg1 _ hnone | reg2 _ _ hnone => exact ⟨rfl, fieldInfo_bounds hnone⟩
  | data _ _ hout =>
    have hv := (valueOf w).isLt
    exact ⟨rfl, hout, show (absAddr (valueOf w)).toNat ≤ 255 by rw [absAddr_toNat]; omega⟩

theorem WordEffect.keeps_inv {w : Word} {s t : State} (heffect : WordEffect w s t) (h : s.Inv)
    (hrun : s.runState = .running) (hin : s.pc.toNat < s.params.memWords)
    (hbelow : s.params.stepLimit ≠ some s.stepCount) : t.Inv := by
  cases heffect with
  | fault hfault => exact h.stop hfault.statusOk_stop
  | load => exact (h.setReg _ (immediate_lt _ _)).retire hrun hin hbelow
  | add => exact (h.setReg _ (addWrap_lt _ _ _)).retire hrun hin hbelow
  | store _ _ haddr => exact (h.writeCell haddr _).retire hrun hin hbelow
  | jump =>
    have htarget := (jumpTarget_le s.params (valueOf w)).trans (le_max_right s.params.memWords 256)
    exact (h.setPc hrun htarget).countStep hrun hbelow
  | halt => exact (h.countStep hrun hbelow).stop ⟨rfl, rfl⟩
  | unknown => exact h.report.retire hrun hin hbelow

/-- Settles O30: by the three kinds of iteration, each a chain of operations that keep the invariant. -/
theorem stepKeepsInvariant : Obligations.StepKeepsInvariant := by
  intro s t h hstep
  rcases step_holds_or_ends_or_executes hstep with ⟨-, rfl⟩ | ⟨o, hstatus, rfl⟩ | ⟨w, hw, heffect⟩
  · exact h
  · exact h.stop hstatus
  · exact heffect.keeps_inv (h.latchIr w) hw.fetches.running hw.fetches.inRange hw.belowLimit

end Sys2Proof.Machine
end

section
/-! PROOFS. The STATUS word (10_state.md R40). -/

namespace Sys2Proof.Machine

/-- Settles O44: each field of `STATUS` is one part of the concatenation. -/
theorem statusWordLayout : Obligations.StatusWordLayout := by
  refine ⟨fun s => ⟨?_, ?_, ?_⟩, fun _ => rfl, rfl, rfl, rfl, rfl, rfl, rfl, rfl, rfl, rfl, rfl, rfl, rfl⟩
  · exact BitVec.extractLsb'_append_eq_right
  · exact (BitVec.extractLsb'_append_eq_of_le (by decide)).trans BitVec.extractLsb'_append_eq_right
  · exact (BitVec.extractLsb'_append_eq_of_le (by decide)).trans BitVec.extractLsb'_append_eq_left

end Sys2Proof.Machine
end

section
/-! PROOFS. The six blocks make the iteration of the run loop (10_state.md R42 to R49, 42_sequencer_and_host.md R159, R160):
on an executed word each effect is what the commit enables of its class write. -/

namespace Sys2Proof.Machine

/-! ### The decoder's and the datapath's outputs -/

section DecoderOutputs

variable (w : Word)

@[simp] theorem instructionDecoder_reg1 : (instructionDecoder w).reg1 = reg1Of w := rfl
@[simp] theorem instructionDecoder_reg2 : (instructionDecoder w).reg2 = reg2Of w := rfl
@[simp] theorem instructionDecoder_opLoad : (instructionDecoder w).opLoad = (opcodeOf w == 0x1#4) := rfl
@[simp] theorem instructionDecoder_opAdd : (instructionDecoder w).opAdd = (opcodeOf w == 0x2#4) := rfl
@[simp] theorem instructionDecoder_opStore : (instructionDecoder w).opStore = (opcodeOf w == 0x3#4) := rfl
@[simp] theorem instructionDecoder_opJump : (instructionDecoder w).opJump = (opcodeOf w == 0x4#4) := rfl
@[simp] theorem instructionDecoder_opHalt : (instructionDecoder w).opHalt = (opcodeOf w == 0xF#4) := rfl
@[simp] theorem instructionDecoder_opUnknown : (instructionDecoder w).opUnknown =
    !(opcodeOf w == 0x1#4 || opcodeOf w == 0x2#4 || opcodeOf w == 0x3#4 || opcodeOf w == 0x4#4 ||
      opcodeOf w == 0xF#4) := rfl
@[simp] theorem instructionDecoder_useReg1 : (instructionDecoder w).useReg1 =
    (opcodeOf w == 0x1#4 || opcodeOf w == 0x2#4 || opcodeOf w == 0x3#4) := rfl
@[simp] theorem instructionDecoder_useReg2 : (instructionDecoder w).useReg2 = (opcodeOf w == 0x2#4) := rfl

@[simp] theorem instructionDecoder_reg1Oor_eq :
    (instructionDecoder w).reg1Oor = (Reg.ofField (reg1Of w)).isNone := by
  rw [Bool.eq_iff_iff, instructionDecoder_reg1Oor, Option.isNone_iff_eq_none, Reg.ofField_eq_none, reg1Of_toNat]

@[simp] theorem instructionDecoder_reg2Oor_eq :
    (instructionDecoder w).reg2Oor = (Reg.ofField (reg2Of w)).isNone := by
  rw [Bool.eq_iff_iff, instructionDecoder_reg2Oor, Option.isNone_iff_eq_none, Reg.ofField_eq_none, reg2Of_toNat]

end DecoderOutputs

/-- The alu_datapath with its inputs connected as `stepPhases` connects them for the word `w`. -/
def State.aluPorts (s : State) (w : Word) : AluPorts :=
  aluDatapath s.params (instructionDecoder w) (registerRead s.regs (reg1Of w)) (registerRead s.regs (reg2Of w))

section AluOutputs

variable (s : State) (w : Word)

@[simp] theorem State.aluPorts_rfWdata : (s.aluPorts w).rfWdata =
    if opcodeOf w == 0x1#4 then some (immediate (valueOf w))
    else if opcodeOf w == 0x2#4 then
      some (addWrap s.params.regWidth (registerRead s.regs (reg1Of w)) (registerRead s.regs (reg2Of w)))
    else none := rfl
@[simp] theorem State.aluPorts_dmemAddr : (s.aluPorts w).dmemAddr = absAddr (valueOf w) := rfl
@[simp] theorem State.aluPorts_dmemWdata : (s.aluPorts w).dmemWdata = registerRead s.regs (reg1Of w) := rfl
@[simp] theorem State.aluPorts_dataOor : (s.aluPorts w).dataOor =
    (opcodeOf w == 0x3#4 && decide (s.params.memWords ≤ (absAddr (valueOf w)).toNat)) := rfl
@[simp] theorem State.aluPorts_pcTarget : (s.aluPorts w).pcTarget = jumpTarget s.params (valueOf w) := rfl

end AluOutputs

/-! ### The fault signal -/

theorem FaultsWith.stepFault_eq {s : State} {w : Word} {o : RunEnd} (h : FaultsWith s.params.memWords w o) :
    stepFault (instructionDecoder w) (s.aluPorts w) = some o := by
  cases h with
  | reg1 hop hnone =>
    have huse : (instructionDecoder w).useReg1 = true := by simpa [or_assoc] using hop
    have hoor : (instructionDecoder w).reg1Oor = true := by simp [hnone]
    rw [stepFault, huse, hoor]
    rfl
  | reg2 hop hd hnone => simp [stepFault, hop, hd, hnone]
  | data hop hr hout => simp [stepFault, hop, hr, hout]

/-! ### The commit -/

/-- A step of the blocks: one commit and, where there is a reason, the end of the run, on the state that latched the word. -/
theorem stepPhases_fst (s : State) (f : FetchPorts) (w : Word) :
    (stepPhases s f w).1 =
      let fault := stepFault (instructionDecoder w) (s.aluPorts w)
      let en := commitEnables (instructionDecoder w) fault.isSome
      endPhase (commitPhase (s.latchIr w) (instructionDecoder w) (s.aluPorts w) en)
        (if en.haltSignal then some .haltOpcode else fault) := rfl

/-- Every enable is 0 when the step faults (42_sequencer_and_host.md R160). -/
theorem commitEnables_of_fault (d : DecoderPorts) : commitEnables d true = idleEnables := by
  simp [commitEnables, idleEnables]

theorem commitPhase_idleEnables (s : State) (d : DecoderPorts) (a : AluPorts) : commitPhase s d a idleEnables = s := by
  simp [commitPhase, idleEnables, programCounter, memoryCommit]

@[simp] theorem registerCommit_no_data (f : RegFile) (we : Bool) (field : BitVec 4) (commit : Bool) :
    registerCommit f we field none commit = f := by
  unfold registerCommit
  cases commit && we <;> rfl

/-- What a step without a fault commits, by the class of its word (42_sequencer_and_host.md R160). -/
theorem commitPhase_of_no_fault (s : State) (d : DecoderPorts) (a : AluPorts) :
    commitPhase s d a (commitEnables d false) =
      { s with
        pc := if d.opLoad || d.opAdd || d.opStore || d.opUnknown then s.pc + 1
          else if d.opJump then a.pcTarget else s.pc
        regs := registerCommit s.regs (d.opLoad || d.opAdd) d.reg1 a.rfWdata true
        mem := if d.opStore then s.mem.write a.dmemAddr.toNat a.dmemWdata else s.mem
        reports := if d.opUnknown then s.reports ++ [{ pc := s.pc, word := s.ir }] else s.reports
        stepCount := s.stepCount + 1 } := rfl

theorem stepPhases_of_fault {s : State} {w : Word} {o : RunEnd}
    (h : stepFault (instructionDecoder w) (s.aluPorts w) = some o) (f : FetchPorts) :
    (stepPhases s f w).1 = (s.latchIr w).stop o := by
  rw [stepPhases_fst, h]
  simp only [Option.isSome_some, commitEnables_of_fault, commitPhase_idleEnables]
  rfl

theorem stepPhases_of_no_fault {s : State} {w : Word} (h : stepFault (instructionDecoder w) (s.aluPorts w) = none)
    (f : FetchPorts) :
    (stepPhases s f w).1 = endPhase
      (commitPhase (s.latchIr w) (instructionDecoder w) (s.aluPorts w) (commitEnables (instructionDecoder w) false))
      (if opcodeOf w == 0xF#4 then some .haltOpcode else none) := by
  rw [stepPhases_fst, h]
  rfl

theorem State.retire_eq (s : State) : s.retire = { s with pc := s.pc + 1, stepCount := s.stepCount + 1 } := rfl

/-- The commit of each class, by its row of the table (42_sequencer_and_host.md R160), makes the effect of the word. -/
theorem WordEffect.stepPhases_eq {s t : State} {w : Word} (h : WordEffect w (s.latchIr w) t) (f : FetchPorts) :
    (stepPhases s f w).1 = t := by
  cases h with
  | fault hfault => exact stepPhases_of_fault hfault.stepFault_eq f
  | load hop hd =>
    have hok : stepFault (instructionDecoder w) (s.aluPorts w) = none := by simp [stepFault, hop, hd]
    rw [stepPhases_of_no_fault hok, commitPhase_of_no_fault]
    simp [hop, hd, endPhase, State.retire_eq, State.setReg]
  | add hop hd hr =>
    have hok : stepFault (instructionDecoder w) (s.aluPorts w) = none := by simp [stepFault, hop, hd, hr]
    rw [stepPhases_of_no_fault hok, commitPhase_of_no_fault]
    simp [hop, hd, hr, endPhase, State.retire_eq, State.setReg, State.x]
  | store hop hr hin =>
    have hok : stepFault (instructionDecoder w) (s.aluPorts w) = none := by
      simpa [stepFault, hop, hr] using hin
    rw [stepPhases_of_no_fault hok, commitPhase_of_no_fault]
    simp [hop, hr, endPhase, State.retire_eq, State.setMem, State.x]
  | jump hop =>
    have hok : stepFault (instructionDecoder w) (s.aluPorts w) = none := by simp [stepFault, hop]
    rw [stepPhases_of_no_fault hok, commitPhase_of_no_fault]
    simp [hop, endPhase, State.setPc, State.countStep]
  | halt hop =>
    have hok : stepFault (instructionDecoder w) (s.aluPorts w) = none := by simp [stepFault, hop]
    rw [stepPhases_of_no_fault hok, commitPhase_of_no_fault]
    simp [hop, endPhase, State.countStep]
  | unknown hload hadd hstore hjump hhalt =>
    have hok : stepFault (instructionDecoder w) (s.aluPorts w) = none := by simp [stepFault, hload, hadd, hstore]
    rw [stepPhases_of_no_fault hok, commitPhase_of_no_fault]
    simp [hload, hadd, hstore, hjump, hhalt, endPhase, State.retire_eq, State.report]

/-! ### The cycle -/

theorem blockCycle_of_not_running {s : State} (h : s.runState ≠ .running) : (blockCycle s).1 = s := by
  unfold blockCycle
  cases hr : s.runState with
  | running => exact absurd hr h
  | idle | halted | stopped => rfl

/-- CHECK ends the run where it finds a reason (42_sequencer_and_host.md R159). -/
theorem blockCycle_of_check {s : State} {o : RunEnd} (hrun : s.runState = .running)
    (hcheck : checkPhase s (fetchUnit s.params.memWords s.pc true)
      (memoryReadPort s.mem (fetchUnit s.params.memWords s.pc true)) = some o) :
    (blockCycle s).1 = s.stop o := by
  simp [blockCycle, hrun, hcheck]

theorem memoryReadPort_fetchUnit {s : State} (hin : s.pc.toNat < s.params.memWords) :
    memoryReadPort s.mem (fetchUnit s.params.memWords s.pc true) = some (s.peek s.pc.toNat) := by
  simp [memoryReadPort, fetchUnit, Nat.not_le.2 hin, State.peek]

/-- Where `step` goes on, the cycle of the blocks goes on to the same state: by the cases of `step`. -/
theorem blockCycle_of_step {s t : State} (h : step s = .next t) : (blockCycle s).1 = t := by
  obtain ⟨hok, ⟨hrun, rfl⟩ | ⟨hrun, hout, rfl⟩ | ⟨hrun, hin, hsentinel, rfl⟩ |
    ⟨hrun, hin, hsentinel, hlimit, rfl⟩ | ⟨hrun, hin, hsentinel, hlimit, -⟩⟩ := step_next h
  · exact blockCycle_of_not_running hrun
  · apply blockCycle_of_check hrun
    simp [checkPhase, fetchUnit, hout]
  · apply blockCycle_of_check hrun
    rw [memoryReadPort_fetchUnit hin, hsentinel]
    simp [checkPhase, fetchUnit, Nat.not_le.2 hin, isSentinel]
  · apply blockCycle_of_check hrun
    rw [memoryReadPort_fetchUnit hin]
    simp [checkPhase, fetchUnit, Nat.not_le.2 hin, isSentinel, hsentinel, hlimit]
  · have hexec : s.Executes (s.peek s.pc.toNat) := ⟨⟨hok, hrun, hin, rfl⟩, hsentinel, hlimit⟩
    rw [blockCycle_executes hexec]
    exact (wordEffect_of_executes hexec h).stepPhases_eq _

/-- Settles O45: a step answers a next state, and the cycle of the blocks makes that state. -/
theorem blocksMakeTheSameIteration : Obligations.BlocksMakeTheSameIteration := by
  refine ⟨fun s hok => ?_, fun _ => rfl⟩
  obtain ⟨t, ht⟩ := step_answers_next hok
  rw [ht, blockCycle_of_step ht]

end Sys2Proof.Machine
end

section
/-! PROOFS. The canonical form of memory determines the list: what each address reads as gives back every listed cell
(20_memory.md R60, R68; log 2). -/

namespace Sys2Proof.Machine

theorem Memory.read_cons_self (a : Nat) (v : Word) (rest : Memory) : Memory.read ((a, v) :: rest) a = v := by
  rw [Memory.read_cons, if_pos rfl]

/-- An address that reads as a listed value is not below the memory's lower bound. -/
theorem Memory.le_of_read_ne_unlisted {lo a : Nat} {m : Memory} (hm : Memory.wfFrom lo m = true)
    (hread : m.read a ≠ Memory.unlisted) : lo ≤ a :=
  Nat.le_of_not_lt fun ha => hread (Memory.read_below m hm ha)

/-- The first listed address bounds from below every address that reads as a listed value. -/
theorem Memory.head_le_of_read_ne_unlisted {lo a b : Nat} {v : Word} {rest : Memory}
    (hm : Memory.wfFrom lo ((a, v) :: rest) = true) (hread : Memory.read ((a, v) :: rest) b ≠ Memory.unlisted) : a ≤ b := by
  obtain ⟨-, hv, hrest⟩ := (Memory.wfFrom_cons _ _ _ _).1 hm
  exact Memory.le_of_read_ne_unlisted ((Memory.wfFrom_cons _ _ _ _).2 ⟨Nat.le_refl a, hv, hrest⟩) hread

/-- What the rest of a canonical memory reads as, from what the whole reads as. -/
theorem Memory.read_tail {a : Nat} {rest : Memory} (hrest : Memory.wfFrom (a + 1) rest = true) (v : Word) (b : Nat) :
    rest.read b = if b = a then Memory.unlisted else Memory.read ((a, v) :: rest) b := by
  by_cases hb : b = a
  · rw [if_pos hb]
    exact Memory.read_below rest hrest (by omega)
  · rw [if_neg hb, Memory.read_cons, if_neg hb]

/-- By induction on the lists: the first addresses bound each other, so they agree, and so do their values and the rests. -/
theorem Memory.ext_of_wfFrom {lo lo' : Nat} {m m' : Memory} (hm : Memory.wfFrom lo m = true)
    (hm' : Memory.wfFrom lo' m' = true) (hread : ∀ a, m.read a = m'.read a) : m = m' := by
  induction m generalizing lo lo' m' with
  | nil =>
    cases m' with
    | nil => rfl
    | cons c' rest' =>
      obtain ⟨-, hlisted, -⟩ := (Memory.wfFrom_cons _ _ _ _).1 hm'
      exact absurd ((Memory.read_cons_self _ _ _).symm.trans (hread c'.1).symm) hlisted
  | cons c rest ih =>
    obtain ⟨a, v⟩ := c
    obtain ⟨-, hv, hrest⟩ := (Memory.wfFrom_cons _ _ _ _).1 hm
    cases m' with
    | nil => exact absurd ((Memory.read_cons_self _ _ _).symm.trans (hread a)) hv
    | cons c' rest' =>
      obtain ⟨b, w⟩ := c'
      obtain ⟨-, hw, hrest'⟩ := (Memory.wfFrom_cons _ _ _ _).1 hm'
      have hab : a ≤ b := Memory.head_le_of_read_ne_unlisted hm (by rwa [hread, Memory.read_cons_self])
      have hba : b ≤ a := Memory.head_le_of_read_ne_unlisted hm' (by rwa [← hread, Memory.read_cons_self])
      obtain rfl : a = b := Nat.le_antisymm hab hba
      have hvalue : v = w := by simpa only [Memory.read_cons_self] using hread a
      have htail : rest = rest' := ih hrest hrest' fun x => by
        rw [Memory.read_tail hrest v, Memory.read_tail hrest' w, hread]
      rw [hvalue, htail]

/-- Settles O34: both memories are canonical from the bound 0. -/
theorem canonicalMemoriesReadAlikeAreEqual : Obligations.CanonicalMemoriesReadAlikeAreEqual :=
  fun _ _ hm hm' hread => Memory.ext_of_wfFrom hm hm' hread

end Sys2Proof.Machine
end

section
/-! PROOFS. What writes memory and what the next fetch reads there (20_memory.md R66, R76), and that nothing writes the
parameters (00_scope.md R8; log 1). -/

namespace Sys2Proof.Machine

/-- What every address reads as after a STORE's effect. -/
theorem State.peek_retire_write {s : State} (hwf : s.mem.wf = true) (a : Nat) (v : Word) (b : Nat) :
    (s.setMem (s.mem.write a v)).retire.peek b = if b = a then v else s.peek b :=
  Memory.read_write s.mem hwf a v b

/-! ### What a step and a host command can write -/

/-- Of a word's effects only STORE's writes memory, at the word's own address. -/
theorem WordEffect.writes_only_own_address {w : Word} {s t : State} {a : Nat} (h : WordEffect w s t)
    (hwf : s.mem.wf = true) (hne : t.peek a ≠ s.peek a) :
    opcodeOf w = 0x3#4 ∧ a = (absAddr (valueOf w)).toNat ∧ a < s.params.memWords := by
  cases h with
  | store hop _ hin =>
    rw [State.peek_retire_write hwf] at hne
    have ha : a = (absAddr (valueOf w)).toNat := by_contra fun hother => hne (if_neg hother)
    exact ⟨hop, ha, ha ▸ hin⟩
  | fault | load | add | jump | halt | unknown => exact absurd rfl hne

theorem WordEffect.keeps_params {w : Word} {s t : State} (h : WordEffect w s t) : t.params = s.params := by
  cases h <;> rfl

theorem step_keeps_params {s t : State} (h : step s = .next t) : t.params = s.params := by
  rcases step_holds_or_ends_or_executes h with ⟨-, rfl⟩ | ⟨o, -, rfl⟩ | ⟨w, -, heffect⟩
  · rfl
  · rfl
  · exact heffect.keeps_params

theorem hostCommand_keeps_params {c : HostCommand} {s t : State} {r : HostReply} (h : hostCommand c s = .next (t, r)) :
    t.params = s.params := by
  rcases hostCommand_next h with rfl | ⟨-, -, rfl⟩ | ⟨-, ws, -, rfl⟩ <;> rfl

/-- The commands other than `load_image` answer a state with the same memory. -/
theorem hostCommand_writes_mem_only_by_load {c : HostCommand} {s t : State} {r : HostReply}
    (h : hostCommand c s = .next (t, r)) (hne : t.mem ≠ s.mem) : ∃ source, c = .loadImage source := by
  cases c with
  | loadImage source => exact ⟨source, rfl⟩
  | start | dumpRegisters | dumpMemory =>
    obtain ⟨-, hanswer⟩ := betweenRuns_next.1 h
    cases hanswer
    exact absurd rfl hne
  | readStatus =>
    cases h
    exact absurd rfl hne

/-- Settles O24: by the three kinds of iteration, of which only the executed word's effect reaches memory, and by the
commands of the host port. -/
theorem onlyStoreAndLoaderWriteMemory : Obligations.OnlyStoreAndLoaderWriteMemory := by
  refine ⟨fun s t a hwf hstep hne => ?_, fun _ _ _ _ => hostCommand_writes_mem_only_by_load,
    fun _ _ => step_keeps_params, fun _ _ _ _ => hostCommand_keeps_params⟩
  rcases step_holds_or_ends_or_executes hstep with ⟨-, rfl⟩ | ⟨o, -, rfl⟩ | ⟨w, hw, heffect⟩
  · exact absurd rfl hne
  · exact absurd rfl hne
  · exact ⟨w, hw, heffect.writes_only_own_address hwf hne⟩

/-! ### The fetch after a STORE -/

theorem decodeOpcode_of_store {w : Word} (hop : opcodeOf w = 0x3#4) :
    decodeOpcode w = .store (reg1Of w) (valueOf w) := by
  simp [decodeOpcode, hop]

/-- A STORE of a register that exists, inside memory, writes its one cell and goes on (40_data_ops.md R103). -/
theorem step_of_executes_store {s : State} {w : Word} {r : Reg} (h : s.Executes w) (hop : opcodeOf w = 0x3#4)
    (hreg : reg1Of w = r.field) (hin : (absAddr (valueOf w)).toNat < s.params.memWords) :
    step s = .next (((s.latchIr w).setMem (s.mem.write (absAddr (valueOf w)).toNat (s.x r))).retire) := by
  rw [step_of_executes h, decodeOpcode_of_store hop]
  exact execStore_next.2 (.inr (.inr ⟨r, hreg ▸ Reg.ofField_field r, hin, rfl⟩))

/-- Settles O27: an 8-bit address has no wrap below it, so the next `pc` is the address that the STORE has just written. -/
theorem storedWordIsFetchedNext : Obligations.StoredWordIsFetchedNext := by
  intro s w r hwf hw hop hreg hnext hin
  have haddr : (absAddr (valueOf w)).toNat = (valueOf w).toNat := absAddr_toNat _
  have hpc : (s.pc + 1).toNat = (valueOf w).toNat := by
    have hsmall := (valueOf w).isLt
    bv_omega
  refine ⟨_, step_of_executes_store hw hop hreg (haddr.trans_lt hin), ?_⟩
  refine ⟨hw.fetches.params, hw.fetches.running, hpc.trans_lt hin, ?_⟩
  rw [State.retire_pc]
  exact (State.peek_retire_write (s := s.latchIr w) hwf _ _ _).trans (if_pos (hpc.trans haddr.symm))

end Sys2Proof.Machine
end

section
/-! PROOFS. Words and instructions determine each other: the encoder packs again the fields that the decoder takes apart
(30_encoding.md R83, R88), and the one term that stands for no word is the HALT of the sentinel's bits (R90; log 10). -/

namespace Sys2Proof.Machine

/-! ### A word is its fields -/

theorem packValue_fields {w : Word} {o : BitVec 4} (hop : opcodeOf w = o) : packValue o (reg1Of w) (valueOf w) = w := by
  subst hop
  apply BitVec.eq_of_toNat_eq
  rw [packValue_toNat, opcodeOf_toNat, reg1Of_toNat, valueOf_toNat]
  omega

theorem packRegs_fields {w : Word} {o : BitVec 4} (hop : opcodeOf w = o) :
    packRegs o (reg1Of w) (reg2Of w) (low4Of w) = w := by
  subst hop
  apply BitVec.eq_of_toNat_eq
  rw [packRegs_toNat, opcodeOf_toNat, reg1Of_toNat, reg2Of_toNat, low4Of_toNat]
  omega

theorem packLow_fields {w : Word} {o : BitVec 4} (hop : opcodeOf w = o) : packLow o (low12Of w) = w := by
  subst hop
  apply BitVec.eq_of_toNat_eq
  rw [packLow_toNat, opcodeOf_toNat, low12Of_toNat]
  omega

/-! ### The opcode map both ways -/

/-- The case split follows the arms of `decodeOpcode`, each by its bit pattern in 30_encoding.md R83. -/
theorem encode_decodeOpcode (w : Word) : encode (decodeOpcode w) = w := by
  unfold decodeOpcode
  split
  case h_2 hop | h_4 hop | h_5 hop => exact packValue_fields (opcodeOf_eq_of_toNat hop)
  case h_3 hop => exact packRegs_fields (opcodeOf_eq_of_toNat hop)
  case h_16 =>
    have hlt := (opcodeOf w).isLt
    have hF : (opcodeOf w).toNat = 15 := by grind
    exact packLow_fields (opcodeOf_eq_of_toNat hF)
  all_goals
    rename_i hop
    exact packLow_fields (opcodeOf_eq_of_toNat hop)

/-- The opcode map reads back every row but END, which it does not know. -/
theorem decodeOpcode_encode {i : Instr} (hi : i ≠ .endOfProgram) : decodeOpcode (encode i) = i := by
  cases i with
  | endOfProgram => exact absurd rfl hi
  | load | add | store | jump | halt | reserved0 | reserved5 | reserved6 | reserved7 | reserved8 | reserved9
  | reservedA | reservedB | reservedC | reservedD | reservedE => simp [encode, decodeOpcode]

/-! ### The sentinel -/

@[simp] theorem decode_sentinelWord : decode sentinelWord = .endOfProgram := if_pos rfl

theorem decode_of_ne_sentinelWord {w : Word} (hw : w ≠ sentinelWord) : decode w = decodeOpcode w := if_neg hw

theorem encode_halt_all_ones : encode (.halt 0xFFF#12) = sentinelWord := by decide

theorem wellFormed_iff_ne_halt_all_ones (i : Instr) : i.wellFormed = true ↔ i ≠ .halt 0xFFF#12 := by
  cases i <;> simp [Instr.wellFormed]

/-- A word that reads back as the ill-formed HALT is the sentinel. -/
theorem decodeOpcode_wellFormed {w : Word} (hw : w ≠ sentinelWord) : (decodeOpcode w).wellFormed = true := by
  rw [wellFormed_iff_ne_halt_all_ones]
  intro hones
  have hword : w = sentinelWord := by rw [← encode_decodeOpcode w, hones, encode_halt_all_ones]
  exact hw hword

/-- Of the well-formed terms only END has the sentinel's word: without the sentinel test the word would read back as the
ill-formed HALT. -/
theorem encode_ne_sentinelWord {i : Instr} (hwf : i.wellFormed = true) (hi : i ≠ .endOfProgram) :
    encode i ≠ sentinelWord := by
  intro hword
  have hones : i = .halt 0xFFF#12 := by
    rw [← decodeOpcode_encode hi, hword, ← encode_halt_all_ones, decodeOpcode_encode (by decide)]
  exact (wellFormed_iff_ne_halt_all_ones i).1 hwf hones

/-! ### The round trips -/

/-- Settles O1: END by the sentinel test, any other well-formed instruction by the opcode map, since its word is not the
sentinel. -/
theorem decodeReadsBackEncode : Obligations.DecodeReadsBackEncode := by
  intro i hwf
  by_cases hi : i = .endOfProgram
  · subst hi
    exact decode_sentinelWord
  · rw [decode_of_ne_sentinelWord (encode_ne_sentinelWord hwf hi), decodeOpcode_encode hi]

/-- Settles O2: the sentinel is END's word, and of any other word the opcode map keeps every field. -/
theorem encodeReadsBackDecode : Obligations.EncodeReadsBackDecode := by
  intro w
  by_cases hw : w = sentinelWord
  · subst hw
    rw [decode_sentinelWord]
    exact ⟨rfl, rfl⟩
  · rw [decode_of_ne_sentinelWord hw]
    exact ⟨encode_decodeOpcode w, decodeOpcode_wellFormed hw⟩

theorem decode_eq_of_encode {i : Instr} {w : Word} (hwf : i.wellFormed = true) (hword : encode i = w) : decode w = i :=
  hword ▸ decodeReadsBackEncode i hwf

/-- Settles O4: each word is written out as the encoding of the instruction listed for it, and read back. -/
theorem specWordsDecodeAsListed : Obligations.SpecWordsDecodeAsListed :=
  ⟨decode_eq_of_encode rfl rfl, decode_eq_of_encode rfl rfl, decode_eq_of_encode rfl rfl, decode_eq_of_encode rfl rfl,
    decode_eq_of_encode (by decide) rfl, decode_eq_of_encode rfl rfl, by decide, decode_sentinelWord⟩

end Sys2Proof.Machine
end

section
/-! PROOFS. The class of a word is its opcode's (30_encoding.md R92), and its meaning reads no bit that R87 ignores. -/

namespace Sys2Proof.Machine

/-! ### The classes -/

/-- The class of the reserved opcodes is what the other five leave over. -/
theorem instructionDecoder_opUnknown_iff (w : Word) :
    (instructionDecoder w).opUnknown = true ↔ w.toNat / 4096 = 0 ∨ (5 ≤ w.toNat / 4096 ∧ w.toNat / 4096 ≤ 14) := by
  have hlt := w.isLt
  simp only [instructionDecoder_opUnknown, Bool.not_eq_true', ← Bool.not_eq_true, Bool.or_eq_true, opcodeOf_beq,
    BitVec.reduceToNat]
  omega

/-- The sentinel ends the run before the step limit is tested and before `IR` is latched (60_exceptions.md R192). -/
theorem step_of_fetches_sentinelWord {s : State} (h : s.Fetches sentinelWord) : step s = .next (s.stop .sentinel) := by
  obtain ⟨hok, hrun, hin, hw⟩ := h
  have hread : s.memRead s.pc = .next sentinelWord := State.memRead_eq_next.2 ⟨hin, hw.symm⟩
  have hissue : nextIssue s = .next (.run .endOfProgram s) := by
    simp [nextIssue, hok, hrun, State.fetchOutOfRange, Nat.not_le.2 hin, hread, issueWord]
  rw [step, hissue]
  exact execEndOfProgram_eq s

/-- Settles O3: each class output compares the opcode, and the sentinel never comes to a step. -/
theorem everyWordHasOneClass : Obligations.EveryWordHasOneClass :=
  ⟨fun w => ⟨opcodeOf_beq w 0x1#4, opcodeOf_beq w 0x2#4, opcodeOf_beq w 0x3#4, opcodeOf_beq w 0x4#4,
      opcodeOf_beq w 0xF#4, instructionDecoder_opUnknown_iff w⟩,
    fun _ => step_of_fetches_sentinelWord⟩

/-! ### The ignored bits -/

theorem decodeOpcode_of_add {w : Word} (hop : opcodeOf w = 0x2#4) :
    decodeOpcode w = .add (reg1Of w) (reg2Of w) (low4Of w) := by
  simp [decodeOpcode, hop]

theorem decodeOpcode_of_jump {w : Word} (hop : opcodeOf w = 0x4#4) : decodeOpcode w = .jump (reg1Of w) (valueOf w) := by
  simp [decodeOpcode, hop]

theorem decodeOpcode_of_halt {w : Word} (hop : opcodeOf w = 0xF#4) : decodeOpcode w = .halt (low12Of w) := by
  simp [decodeOpcode, hop]

theorem exec_decodeOpcode_of_add {w : Word} (hop : opcodeOf w = 0x2#4) (s : State) :
    exec (decodeOpcode w) s = execAdd (reg1Of w) (reg2Of w) 0#4 s := by
  rw [decodeOpcode_of_add hop]
  rfl

theorem exec_decodeOpcode_of_jump {w : Word} (hop : opcodeOf w = 0x4#4) (s : State) :
    exec (decodeOpcode w) s = .next (s.setPc (jumpTarget s.params (valueOf w))).countStep := by
  rw [decodeOpcode_of_jump hop]
  exact execJump_eq (reg1Of w) (valueOf w) s

theorem exec_decodeOpcode_of_halt {w : Word} (hop : opcodeOf w = 0xF#4) (s : State) :
    exec (decodeOpcode w) s = .next (s.countStep.stop .haltOpcode) := by
  rw [decodeOpcode_of_halt hop]
  exact execHalt_eq (low12Of w) s

/-- Only the opcodes that check an operand fault. -/
theorem FaultsWith.opcode {n : Nat} {w : Word} {o : RunEnd} (h : FaultsWith n w o) :
    opcodeOf w = 0x1#4 ∨ opcodeOf w = 0x2#4 ∨ opcodeOf w = 0x3#4 := by
  cases h with
  | reg1 hop => exact hop
  | reg2 hop => exact .inr (.inl hop)
  | data hop => exact .inr (.inr hop)

/-- Of the effects of a word only the report is left when the opcode is reserved. -/
theorem exec_decodeOpcode_of_reserved {w : Word} (h1 : opcodeOf w ≠ 0x1#4) (h2 : opcodeOf w ≠ 0x2#4)
    (h3 : opcodeOf w ≠ 0x3#4) (h4 : opcodeOf w ≠ 0x4#4) (hF : opcodeOf w ≠ 0xF#4) (s : State) :
    exec (decodeOpcode w) s = .next s.report.retire := by
  obtain ⟨t, ht⟩ := exec_answers_next (decodeOpcode w) s
  rw [ht]
  cases wordEffect_of_exec ht with
  | fault hfault =>
    rcases hfault.opcode with hop | hop | hop
    · exact absurd hop h1
    · exact absurd hop h2
    · exact absurd hop h3
  | load hop => exact absurd hop h1
  | add hop => exact absurd hop h2
  | store hop => exact absurd hop h3
  | jump hop => exact absurd hop h4
  | halt hop => exact absurd hop hF
  | unknown => rfl

/-- Settles O5: what each of these opcodes makes of the state, said without the ignored bits, is alike for both words. -/
theorem ignoredBitsHaveNoEffect : Obligations.IgnoredBitsHaveNoEffect := by
  intro s v w hv hw hvw
  rw [decode_of_ne_sentinelWord hv, decode_of_ne_sentinelWord hw]
  refine ⟨fun h2 hreg1 hreg2 => ?_, fun h4 hvalue => ?_, fun h1 h2 h3 h4 => ?_⟩
  · rw [exec_decodeOpcode_of_add h2, exec_decodeOpcode_of_add (hvw ▸ h2), hreg1, hreg2]
  · rw [exec_decodeOpcode_of_jump h4, exec_decodeOpcode_of_jump (hvw ▸ h4), hvalue]
  · by_cases hF : opcodeOf v = 0xF#4
    · rw [exec_decodeOpcode_of_halt hF, exec_decodeOpcode_of_halt (hvw ▸ hF)]
    · rw [exec_decodeOpcode_of_reserved h1 h2 h3 h4 hF]
      rw [hvw] at h1 h2 h3 h4 hF
      rw [exec_decodeOpcode_of_reserved h1 h2 h3 h4 hF]

end Sys2Proof.Machine
end

section
/-! PROOFS. The assembler's arithmetic (30_encoding.md R93, R94) gives the bit patterns of R83. -/

namespace Sys2Proof.Machine

/-! ### The bit patterns of operands in range -/

theorem packValue_ofNat (o : BitVec 4) {d v : Nat} (hd : d < 16) (hv : v < 256) :
    packValue o (BitVec.ofNat 4 d) (BitVec.ofNat 8 v) = BitVec.ofNat 16 (o.toNat * 4096 + d * 256 + v) := by
  apply BitVec.eq_of_toNat_eq
  have ho := o.isLt
  simp only [packValue_toNat, BitVec.toNat_ofNat]
  omega

theorem packRegs_ofNat (o : BitVec 4) {d r : Nat} (hd : d < 16) (hr : r < 16) :
    packRegs o (BitVec.ofNat 4 d) (BitVec.ofNat 4 r) 0#4 = BitVec.ofNat 16 (o.toNat * 4096 + d * 256 + r * 16) := by
  apply BitVec.eq_of_toNat_eq
  have ho := o.isLt
  simp only [packRegs_toNat, BitVec.toNat_ofNat]
  omega

/-! ### The lines -/

@[simp] theorem wordIf_true (h : Nat) : wordIf true h = some (BitVec.ofNat 16 h) := rfl

@[simp] theorem wordIf_false (h : Nat) : wordIf false h = none := rfl

theorem assemble_load {d imm : Nat} (hd : d ≤ 7) (himm : imm ≤ 255) :
    assemble (.load d imm) = some (encode (.load (BitVec.ofNat 4 d) (BitVec.ofNat 8 imm))) := by
  simp [assemble, encode, hd, himm, packValue_ofNat _ (d := d) (v := imm) (by omega) (by omega)]

theorem assemble_store {d addr : Nat} (hd : d ≤ 7) (haddr : addr ≤ 255) :
    assemble (.store d addr) = some (encode (.store (BitVec.ofNat 4 d) (BitVec.ofNat 8 addr))) := by
  simp [assemble, encode, hd, haddr, packValue_ofNat _ (d := d) (v := addr) (by omega) (by omega)]

theorem assemble_jump {addr : Nat} (haddr : addr ≤ 255) :
    assemble (.jump addr) = some (encode (.jump 0#4 (BitVec.ofNat 8 addr))) := by
  simp [assemble, encode, haddr, packValue_ofNat _ (d := 0) (v := addr) (by omega) (by omega)]

theorem assemble_add {d r : Nat} (hd : d ≤ 7) (hr : r ≤ 7) :
    assemble (.add d r) = some (encode (.add (BitVec.ofNat 4 d) (BitVec.ofNat 4 r) 0#4)) := by
  simp [assemble, encode, hd, hr, packRegs_ofNat _ (d := d) (r := r) (by omega) (by omega)]

theorem assemble_halt : assemble .halt = some (encode (.halt 0#12)) := by
  decide

theorem assemble_word (w : Word) : assemble (.word w.toNat) = some w := by
  have hw : w.toNat ≤ 0xFFFF := by omega
  simp [assemble, hw]

theorem assemble_refuses_value {d imm : Nat} (h : 7 < d ∨ 255 < imm) :
    assemble (.load d imm) = none ∧ assemble (.store d imm) = none := by
  have hrange : (decide (d ≤ 7) && decide (imm ≤ 255)) = false := by
    simp only [Bool.and_eq_false_iff, decide_eq_false_iff_not]
    omega
  simp [assemble, hrange]

theorem assemble_refuses_add {d r : Nat} (h : 7 < d ∨ 7 < r) : assemble (.add d r) = none := by
  have hrange : (decide (d ≤ 7) && decide (r ≤ 7)) = false := by
    simp only [Bool.and_eq_false_iff, decide_eq_false_iff_not]
    omega
  simp [assemble, hrange]

theorem assemble_refuses_jump {addr : Nat} (h : 255 < addr) : assemble (.jump addr) = none := by
  have hrange : decide (addr ≤ 255) = false := decide_eq_false (Nat.not_le.2 h)
  simp [assemble, hrange]

/-- Settles O6: each line in range is its bit pattern, and each check on an operand refuses the others. -/
theorem assemblerAgreesWithEncoder : Obligations.AssemblerAgreesWithEncoder :=
  ⟨fun _ _ hd himm => ⟨assemble_load hd himm, assemble_store hd himm, assemble_jump himm⟩,
    fun _ _ hd hr => assemble_add hd hr, assemble_halt, rfl, fun _ _ => assemble_refuses_value,
    fun _ _ => assemble_refuses_add, fun _ => assemble_refuses_jump, assemble_word⟩

end Sys2Proof.Machine
end

section
/-! PROOFS. LOAD, ADD and STORE (40_data_ops.md R101 to R103): the result and the frame of each, its stops, its words. -/

namespace Sys2Proof.Machine

/-! ### The words of the three opcodes -/

theorem reg1Of_eq_ofNat (w : Word) : reg1Of w = BitVec.ofNat 4 (w.toNat / 256) := by
  apply BitVec.eq_of_toNat_eq
  rw [reg1Of_toNat, BitVec.toNat_ofNat]

theorem reg2Of_eq_ofNat (w : Word) : reg2Of w = BitVec.ofNat 4 (w.toNat / 16) := by
  apply BitVec.eq_of_toNat_eq
  rw [reg2Of_toNat, BitVec.toNat_ofNat]

theorem low4Of_eq_ofNat (w : Word) : low4Of w = BitVec.ofNat 4 w.toNat := by
  apply BitVec.eq_of_toNat_eq
  rw [low4Of_toNat, BitVec.toNat_ofNat]

theorem valueOf_eq_ofNat (w : Word) : valueOf w = BitVec.ofNat 8 w.toNat := by
  apply BitVec.eq_of_toNat_eq
  rw [valueOf_toNat, BitVec.toNat_ofNat]

/-- The sentinel has opcode 0xF, so the test before decoding stops no word of another opcode (30_encoding.md R90). -/
theorem decode_of_opcodeOf_ne {w : Word} (hop : opcodeOf w ≠ 0xF#4) : decode w = decodeOpcode w :=
  decode_of_ne_sentinelWord fun hw => hop (hw ▸ (by decide : opcodeOf sentinelWord = 0xF#4))

theorem opcodeOf_eq_of_div {w : Word} {n : Nat} (h : w.toNat / 4096 = n) : opcodeOf w = BitVec.ofNat 4 n :=
  opcodeOf_eq_of_toNat ((opcodeOf_toNat w).trans h)

theorem decodeOpcode_of_load {w : Word} (hop : opcodeOf w = 0x1#4) : decodeOpcode w = .load (reg1Of w) (valueOf w) := by
  simp [decodeOpcode, hop]

theorem decode_of_load_word {w : Word} (h : w.toNat / 4096 = 1) :
    decode w = .load (BitVec.ofNat 4 (w.toNat / 256)) (BitVec.ofNat 8 w.toNat) := by
  have hop : opcodeOf w = 0x1#4 := opcodeOf_eq_of_div h
  rw [decode_of_opcodeOf_ne (by simp [hop]), decodeOpcode_of_load hop, reg1Of_eq_ofNat, valueOf_eq_ofNat]

theorem decode_of_add_word {w : Word} (h : w.toNat / 4096 = 2) :
    decode w = .add (BitVec.ofNat 4 (w.toNat / 256)) (BitVec.ofNat 4 (w.toNat / 16)) (BitVec.ofNat 4 w.toNat) := by
  have hop : opcodeOf w = 0x2#4 := opcodeOf_eq_of_div h
  rw [decode_of_opcodeOf_ne (by simp [hop]), decodeOpcode_of_add hop, reg1Of_eq_ofNat, reg2Of_eq_ofNat, low4Of_eq_ofNat]

theorem decode_of_store_word {w : Word} (h : w.toNat / 4096 = 3) :
    decode w = .store (BitVec.ofNat 4 (w.toNat / 256)) (BitVec.ofNat 8 w.toNat) := by
  have hop : opcodeOf w = 0x3#4 := opcodeOf_eq_of_div h
  rw [decode_of_opcodeOf_ne (by simp [hop]), decodeOpcode_of_store hop, reg1Of_eq_ofNat, valueOf_eq_ofNat]

/-! ### The effects on registers that exist -/

theorem execLoad_field (s : State) (d : Reg) (value : BitVec 8) :
    execLoad d.field value s = .next (s.setReg d (immediate value)).retire :=
  execLoad_next.2 (.inr ⟨d, Reg.ofField_field d, rfl⟩)

theorem execAdd_field (s : State) (d r : Reg) (ignored : BitVec 4) :
    execAdd d.field r.field ignored s =
      .next (s.setReg d (addWrap s.params.regWidth (s.x d) (s.x r))).retire :=
  (execAdd_next ignored).2 (.inr (.inr ⟨d, r, Reg.ofField_field d, Reg.ofField_field r, rfl⟩))

theorem execStore_field {s : State} (r : Reg) {value : BitVec 8} (hin : (absAddr value).toNat < s.params.memWords) :
    execStore r.field value s = .next (s.setMem (s.mem.write (absAddr value).toNat (s.x r))).retire :=
  execStore_next.2 (.inr (.inr ⟨r, Reg.ofField_field r, hin, rfl⟩))

/-! ### The stops -/

theorem execLoad_of_no_reg1 {reg1 : BitVec 4} (h : Reg.ofField reg1 = none) (value : BitVec 8) (s : State) :
    execLoad reg1 value s = .next (s.stop (.outOfRange .reg1 (fieldInfo reg1))) :=
  execLoad_next.2 (.inl ⟨h, rfl⟩)

theorem execAdd_of_no_reg1 {reg1 : BitVec 4} (h : Reg.ofField reg1 = none) (reg2 ignored : BitVec 4) (s : State) :
    execAdd reg1 reg2 ignored s = .next (s.stop (.outOfRange .reg1 (fieldInfo reg1))) :=
  (execAdd_next ignored).2 (.inl ⟨h, rfl⟩)

theorem execAdd_of_no_reg2 (d : Reg) {reg2 : BitVec 4} (h : Reg.ofField reg2 = none) (ignored : BitVec 4) (s : State) :
    execAdd d.field reg2 ignored s = .next (s.stop (.outOfRange .reg2 (fieldInfo reg2))) :=
  (execAdd_next ignored).2 (.inr (.inl ⟨d, Reg.ofField_field d, h, rfl⟩))

theorem execStore_of_no_reg1 {reg1 : BitVec 4} (h : Reg.ofField reg1 = none) (value : BitVec 8) (s : State) :
    execStore reg1 value s = .next (s.stop (.outOfRange .reg1 (fieldInfo reg1))) :=
  execStore_next.2 (.inl ⟨h, rfl⟩)

theorem execStore_of_outside {s : State} (r : Reg) {value : BitVec 8} (hout : s.params.memWords ≤ (absAddr value).toNat) :
    execStore r.field value s = .next (s.stop (.outOfRange .data (absAddr value))) :=
  execStore_next.2 (.inr (.inl ⟨r, Reg.ofField_field r, hout, rfl⟩))

/-! ### The instructions -/

/-- Settles O7: the effect on a register that exists, the REG1 stop, and the fields of a word of opcode 1. -/
theorem loadWritesZeroExtendedImmediate : Obligations.LoadWritesZeroExtendedImmediate := by
  refine ⟨fun s d value => ?_, fun s reg1 value h => ?_, fun _ => decode_of_load_word⟩
  · exact ⟨_, execLoad_field s d value, State.x_setReg_same s d _, fun q hq => State.x_setReg_other s hq _, rfl⟩
  · exact execLoad_of_no_reg1 ((Reg.ofField_eq_none reg1).2 h) value s

/-- Settles O8: the effect on registers that exist, with the sum of the old values, the two stops in their order, and the
fields of a word of opcode 2. -/
theorem addWritesSumModuloWidth : Obligations.AddWritesSumModuloWidth := by
  refine ⟨fun s d r ignored => ?_, fun s reg1 reg2 ignored h => ?_, fun s d reg2 ignored h => ?_,
    fun _ => decode_of_add_word⟩
  · refine ⟨_, execAdd_field s d r ignored, ?_, fun q hq => State.x_setReg_other s hq _, rfl⟩
    rw [State.retire_x, State.x_setReg_same, addWrap_toNat]
  · exact execAdd_of_no_reg1 ((Reg.ofField_eq_none reg1).2 h) reg2 ignored s
  · exact execAdd_of_no_reg2 d ((Reg.ofField_eq_none reg2).2 h) ignored s

/-- Settles O9: a canonical memory reads the new cell at the written address and the old one elsewhere; then the two stops
in their order and the fields of a word of opcode 3. -/
theorem storeWritesOneCell : Obligations.StoreWritesOneCell := by
  refine ⟨fun s r value hwf hin => ?_, fun s reg1 value h => ?_, fun s r value => execStore_of_outside r,
    fun _ => decode_of_store_word⟩
  · have hread := State.peek_retire_write hwf (absAddr value).toNat (s.x r)
    exact ⟨_, execStore_field r hin, (hread _).trans (if_pos rfl), fun a ha => (hread a).trans (if_neg ha), rfl⟩
  · exact execStore_of_no_reg1 ((Reg.ofField_eq_none reg1).2 h) value s

end Sys2Proof.Machine
end

section
/-! PROOFS. The bound of the register values (10_state.md R21, 40_data_ops.md R105). -/

namespace Sys2Proof.Machine

theorem State.regsBounded_setReg {s : State} (h : s.regsBounded) (r : Reg) {v : Word}
    (hv : v.toNat < 2 ^ regBits s.params.regWidth) : (s.setReg r v).regsBounded := by
  intro q
  by_cases hq : q = r
  · subst hq
    rwa [State.x_setReg_same]
  · rw [State.x_setReg_other s hq]
    exact h q

/-- The bound speaks of the registers and of the width only. -/
theorem State.regsBounded_of_same_regs {s t : State} (h : s.regsBounded) (hregs : t.regs = s.regs)
    (hparams : t.params = s.params) : t.regsBounded := by
  unfold State.regsBounded State.x
  rw [hregs, hparams]
  exact h

theorem State.powerOn_regsBounded (p : Params) : (State.powerOn p).regsBounded := by
  intro r
  have hzero : (State.powerOn p).x r = 0 := by cases r <;> rfl
  rw [hzero]
  exact Nat.two_pow_pos _

/-- Only LOAD's and ADD's effects write a register, and both values are below `2^W`. -/
theorem WordEffect.keeps_regsBounded {w : Word} {s t : State} (heffect : WordEffect w s t) (h : s.regsBounded) :
    t.regsBounded := by
  cases heffect with
  | load => exact State.regsBounded_setReg h _ (immediate_lt _ _)
  | add => exact State.regsBounded_setReg h _ (addWrap_lt _ _ _)
  | fault | store | jump | halt | unknown => exact h

theorem step_keeps_regsBounded {s t : State} (h : s.regsBounded) (hstep : step s = .next t) : t.regsBounded := by
  rcases step_holds_or_ends_or_executes hstep with ⟨-, rfl⟩ | ⟨o, -, rfl⟩ | ⟨w, -, heffect⟩
  · exact h
  · exact h
  · exact heffect.keeps_regsBounded h

/-- LOAD's value has 8 bits, so a new value above 255 is an ADD's. -/
theorem WordEffect.opcode_of_value_above_255 {w : Word} {s t : State} {r : Reg} (h : WordEffect w s t)
    (hne : t.x r ≠ s.x r) (habove : 255 < (t.x r).toNat) : opcodeOf w = 0x2#4 := by
  cases h with
  | load =>
    obtain rfl := State.eq_of_x_setReg_ne hne
    rw [State.retire_x, State.x_setReg_same, immediate_toNat] at habove
    omega
  | add hop => exact hop
  | fault | store | jump | halt | unknown => exact absurd rfl hne

/-- Settles O33: the bound at power-on, by the kinds of iteration, and for the commands, none of which writes a register. -/
theorem registerValuesStayInRange : Obligations.RegisterValuesStayInRange := by
  refine ⟨State.powerOn_regsBounded, fun _ _ => step_keeps_regsBounded, fun s t c r h hhost => ?_,
    fun s t r hstep hne habove => ?_⟩
  · exact State.regsBounded_of_same_regs h (hostCommand_keeps_regs hhost) (hostCommand_keeps_params hhost)
  · rcases step_holds_or_ends_or_executes hstep with ⟨-, rfl⟩ | ⟨o, -, rfl⟩ | ⟨w, hw, heffect⟩
    · exact absurd rfl hne
    · exact absurd rfl hne
    · exact ⟨w, hw, heffect.opcode_of_value_above_255 hne habove⟩

end Sys2Proof.Machine
end

section
/-! PROOFS. The two widths agree where no sum reaches the smaller modulus (40_data_ops.md R106): the step commutes with the
change of width, and a run is a chain of such steps. -/

namespace Sys2Proof.Machine

/-! ### What each iteration answers, as equations -/

theorem step_of_not_running {s : State} (hok : s.params.ok = true) (hrun : s.runState ≠ .running) : step s = .next s := by
  have hhold : nextIssue s = .next .hold := by
    unfold nextIssue
    rw [if_pos hok]
    cases hr : s.runState with
    | running => exact absurd hr hrun
    | idle | halted | stopped => rfl
  rw [step, hhold]

theorem step_of_pc_outside {s : State} (hok : s.params.ok = true) (hrun : s.runState = .running)
    (hout : s.params.memWords ≤ s.pc.toNat) : step s = .next (s.stop (.outOfRange .fetch s.pc)) := by
  simp [step, nextIssue, hok, hrun, State.fetchOutOfRange, hout]

theorem step_of_limit_reached {s : State} {w : Word} (h : s.Fetches w) (hsentinel : w ≠ sentinelWord)
    (hlimit : s.params.stepLimit = some s.stepCount) : step s = .next (s.stop .stepLimit) := by
  obtain ⟨hok, hrun, hin, hw⟩ := h
  have hread : s.memRead s.pc = .next w := State.memRead_eq_next.2 ⟨hin, hw.symm⟩
  have hreached : s.atStepLimit = true := (State.atStepLimit_iff s).2 hlimit
  simp [step, nextIssue, hok, hrun, State.fetchOutOfRange, Nat.not_le.2 hin, hread, issueWord, hsentinel, hreached]

theorem exec_of_faultsWith {w : Word} {s : State} {o : RunEnd} (h : FaultsWith s.params.memWords w o) :
    exec (decodeOpcode w) s = .next (s.stop o) := by
  cases h with
  | reg1 hop hnone =>
    rcases hop with hop | hop | hop
    · rw [decodeOpcode_of_load hop]
      exact execLoad_of_no_reg1 hnone _ s
    · rw [exec_decodeOpcode_of_add hop]
      exact execAdd_of_no_reg1 hnone _ _ s
    · rw [decodeOpcode_of_store hop]
      exact execStore_of_no_reg1 hnone _ s
  | reg2 hop hd hnone =>
    rw [exec_decodeOpcode_of_add hop, hd]
    exact execAdd_of_no_reg2 _ hnone _ s
  | data hop hr hout =>
    rw [decodeOpcode_of_store hop, hr]
    exact execStore_of_outside _ hout

/-- An effect of the word is the one that its meaning makes: the converse of `wordEffect_of_exec`. -/
theorem WordEffect.exec_eq {w : Word} {s t : State} (h : WordEffect w s t) : exec (decodeOpcode w) s = .next t := by
  cases h with
  | fault hfault => exact exec_of_faultsWith hfault
  | load hop hd =>
    rw [decodeOpcode_of_load hop, hd]
    exact execLoad_field s _ _
  | add hop hd hr =>
    rw [exec_decodeOpcode_of_add hop, hd, hr]
    exact execAdd_field s _ _ _
  | store hop hr hin =>
    rw [decodeOpcode_of_store hop, hr]
    exact execStore_field _ hin
  | jump hop => exact exec_decodeOpcode_of_jump hop s
  | halt hop => exact exec_decodeOpcode_of_halt hop s
  | unknown h1 h2 h3 h4 hF => exact exec_decodeOpcode_of_reserved h1 h2 h3 h4 hF s

theorem step_of_wordEffect {s t : State} {w : Word} (h : s.Executes w) (heffect : WordEffect w (s.latchIr w) t) :
    step s = .next t :=
  (step_of_executes h).trans heffect.exec_eq

/-! ### One step at another width -/

/-- No check of the run loop reads the width. -/
theorem State.Fetches.withWidth {s : State} {w : Word} (h : s.Fetches w) (v : RegWidth) : (s.withWidth v).Fetches w :=
  ⟨h.params, h.running, h.inRange, h.word⟩

theorem State.Executes.withWidth {s : State} {w : Word} (h : s.Executes w) (v : RegWidth) : (s.withWidth v).Executes w :=
  ⟨h.fetches.withWidth v, h.notSentinel, h.belowLimit⟩

/-- Every effect but ADD's is the same at another width, and ADD's is where the two sums are. -/
theorem WordEffect.withWidth {w : Word} {s t : State} (h : WordEffect w s t) (v : RegWidth)
    (hsum : ∀ d r : Reg, opcodeOf w = 0x2#4 → reg1Of w = d.field → reg2Of w = r.field →
      addWrap s.params.regWidth (s.x d) (s.x r) = addWrap v (s.x d) (s.x r)) :
    WordEffect w (s.withWidth v) (t.withWidth v) := by
  cases h with
  | fault hfault => exact .fault (s := s.withWidth v) hfault
  | load hop hd => exact .load (s := s.withWidth v) hop hd
  | add hop hd hr =>
    rw [hsum _ _ hop hd hr]
    exact .add (s := s.withWidth v) hop hd hr
  | store hop hr hin => exact .store (s := s.withWidth v) hop hr hin
  | jump hop => exact .jump (s := s.withWidth v) hop
  | halt hop => exact .halt (s := s.withWidth v) hop
  | unknown h1 h2 h3 h4 hF => exact .unknown (s := s.withWidth v) h1 h2 h3 h4 hF

/-- A sum below `2^13` wraps at neither width. -/
theorem addWrap_w16_eq_w13 {a b : Word} (h : a.toNat + b.toNat < 2 ^ 13) : addWrap .w16 a b = addWrap .w13 a b := by
  apply BitVec.eq_of_toNat_eq
  rw [addWrap_toNat, addWrap_toNat, regBits, regBits, Nat.mod_eq_of_lt h, Nat.mod_eq_of_lt (by omega)]

/-- By the cases of `step`, of which only an executed ADD reads the width. -/
theorem step_withWidth_w13 {s : State} (hwidth : s.params.regWidth = .w16) (hsum : ¬ s.AddReaches13) :
    step (s.withWidth .w13) = mapNext (State.withWidth .w13) (step s) := by
  cases hok : s.params.ok with
  | false =>
    have hok13 : (s.withWidth .w13).params.ok = false := hok
    rw [step_refuses_inadmissible hok, step_refuses_inadmissible hok13]
    rfl
  | true =>
    obtain ⟨t, ht⟩ := step_answers_next hok
    rw [ht]
    obtain ⟨-, ⟨hrun, rfl⟩ | ⟨hrun, hout, rfl⟩ | ⟨hrun, hin, hsentinel, rfl⟩ |
      ⟨hrun, hin, hsentinel, hlimit, rfl⟩ | ⟨hrun, hin, hsentinel, hlimit, -⟩⟩ := step_next ht
    · exact step_of_not_running (s := t.withWidth .w13) hok hrun
    · exact step_of_pc_outside (s := s.withWidth .w13) hok hrun hout
    · have hfetch : s.Fetches sentinelWord := ⟨hok, hrun, hin, hsentinel⟩
      exact step_of_fetches_sentinelWord (hfetch.withWidth .w13)
    · have hfetch : s.Fetches (s.peek s.pc.toNat) := ⟨hok, hrun, hin, rfl⟩
      exact step_of_limit_reached (hfetch.withWidth .w13) hsentinel hlimit
    · have hexec : s.Executes (s.peek s.pc.toNat) := ⟨⟨hok, hrun, hin, rfl⟩, hsentinel, hlimit⟩
      have heffect := wordEffect_of_executes hexec ht
      refine step_of_wordEffect (hexec.withWidth .w13) (heffect.withWidth .w13 fun d r hop hd hr => ?_)
      rw [State.latchIr_params, hwidth]
      exact addWrap_w16_eq_w13 (Nat.lt_of_not_le fun hreach => hsum ⟨_, d, r, hexec, hop, hd, hr, hreach⟩)

/-! ### Runs -/

theorem runSteps_succ_of_next {s t : State} (h : step s = .next t) (n : Nat) : runSteps (n + 1) s = runSteps n t := by
  rw [runSteps, h]

theorem runSteps_succ_of_refused {s : State} {r : Refusal} (h : step s = .refused r) (n : Nat) :
    runSteps (n + 1) s = .refused r := by
  rw [runSteps, h]

/-- By induction on the number of steps: the first step commutes with the change of width, and keeps the width. -/
theorem runSteps_withWidth_w13 (n : Nat) {s : State} (hwidth : s.params.regWidth = .w16)
    (hsum : ∀ k t, k < n → runSteps k s = .next t → ¬ t.AddReaches13) :
    runSteps n (s.withWidth .w13) = mapNext (State.withWidth .w13) (runSteps n s) := by
  induction n generalizing s with
  | zero => rfl
  | succ n ih =>
    have hstep := step_withWidth_w13 hwidth (hsum 0 s n.succ_pos rfl)
    cases hok : s.params.ok with
    | false =>
      have hrefused := step_refuses_inadmissible hok
      rw [hrefused] at hstep
      rw [runSteps_succ_of_refused hrefused, runSteps_succ_of_refused hstep]
      rfl
    | true =>
      obtain ⟨t, ht⟩ := step_answers_next hok
      rw [ht] at hstep
      rw [runSteps_succ_of_next ht, runSteps_succ_of_next hstep]
      refine ih (step_keeps_params ht ▸ hwidth) fun k u hk hu => hsum (k + 1) u (by omega) ?_
      rwa [runSteps_succ_of_next ht]

/-! ### A sum that reaches the smaller modulus -/

/-- A run on ADD R0, R0 with R0 = 0x1000: the sum is 0x2000 at one width and 0 at the other. -/
def divergingState : State := (State.reset.placeWord 0x2000#16).setReg .r0 0x1000#16

theorem divergingState_executes : divergingState.Executes 0x2000#16 :=
  ⟨⟨by decide, rfl, by decide, by decide⟩, by decide, nofun⟩

theorem fields_of_add_r0_r0 :
    opcodeOf 0x2000#16 = 0x2#4 ∧ reg1Of 0x2000#16 = Reg.field .r0 ∧ reg2Of 0x2000#16 = Reg.field .r0 := by
  decide

theorem divergingState_addReaches13 : divergingState.AddReaches13 := by
  obtain ⟨hop, hd, hr⟩ := fields_of_add_r0_r0
  exact ⟨_, .r0, .r0, divergingState_executes, hop, hd, hr, by decide⟩

/-- A word of ADD R0, R0 leaves the wrapped double of R0 in R0, at either width. -/
theorem step_of_add_r0_r0 {s : State} (h : s.Executes 0x2000#16) :
    ∃ t, step s = .next t ∧ t.x .r0 = addWrap s.params.regWidth (s.x .r0) (s.x .r0) := by
  obtain ⟨hop, hd, hr⟩ := fields_of_add_r0_r0
  exact ⟨_, step_of_wordEffect h (.add hop hd hr), State.x_setReg_same _ .r0 _⟩

/-- Settles O29: the runs by induction on the steps, and the state from which one step gives two values of R0. -/
theorem widthsAgreeBelowTheSmallerModulus : Obligations.WidthsAgreeBelowTheSmallerModulus := by
  refine ⟨fun n s => runSteps_withWidth_w13 n, ?_⟩
  obtain ⟨t, ht, hsum⟩ := step_of_add_r0_r0 divergingState_executes
  obtain ⟨u, hu, hsum13⟩ := step_of_add_r0_r0 (divergingState_executes.withWidth .w13)
  refine ⟨divergingState, t, u, rfl, divergingState_addReaches13, ht, hu, ?_⟩
  rw [hsum, hsum13]
  decide

end Sys2Proof.Machine
end

section
/-! PROOFS. JUMP, HALT, the reserved opcodes and the sentinel (41_control_ops.md R120 to R124): the effect and the frame of
each, its words, and the iteration that executes or fetches one. -/

namespace Sys2Proof.Machine

/-! ### The words of the control opcodes -/

theorem decode_of_jump_word {w : Word} (h : w.toNat / 4096 = 4) :
    decode w = .jump (BitVec.ofNat 4 (w.toNat / 256)) (BitVec.ofNat 8 w.toNat) := by
  have hop : opcodeOf w = 0x4#4 := opcodeOf_eq_of_div h
  rw [decode_of_opcodeOf_ne (by simp [hop]), decodeOpcode_of_jump hop, reg1Of_eq_ofNat, valueOf_eq_ofNat]

theorem opcodeOf_of_halt_word {w : Word} (h : 0xF000 ≤ w.toNat) : opcodeOf w = 0xF#4 := by
  have hlt := w.isLt
  exact opcodeOf_eq_of_div (by omega)

theorem opcodeOf_ne_of_div {w : Word} {o : BitVec 4} (h : w.toNat / 4096 ≠ o.toNat) : opcodeOf w ≠ o :=
  fun hop => h (hop ▸ (opcodeOf_toNat w).symm)

/-! ### The target of JUMP -/

theorem jumpTarget_of_not_compat {p : Params} (h : p.jumpCompat = false) (v : BitVec 8) : jumpTarget p v = v.setWidth 16 := by
  rw [jumpTarget, h]
  rfl

theorem jumpTarget_toNat_of_compat {p : Params} (h : p.jumpCompat = true) (v : BitVec 8) :
    (jumpTarget p v).toNat = v.toNat + 1 := by
  rw [jumpTarget_toNat, h, if_pos rfl]

/-! ### The steps on words of HALT and of the reserved opcodes -/

theorem step_of_executes_halt {s : State} {w : Word} (h : s.Executes w) (hop : opcodeOf w = 0xF#4) :
    step s = .next ((s.latchIr w).countStep.stop .haltOpcode) :=
  step_of_wordEffect h (.halt hop)

/-- The report is made on the state that latched the word, so it holds that word (42_sequencer_and_host.md R144). -/
theorem step_of_executes_reserved {s : State} {w : Word} (h : s.Executes w)
    (hreserved : w.toNat / 4096 = 0 ∨ (5 ≤ w.toNat / 4096 ∧ w.toNat / 4096 ≤ 14)) :
    step s = .next (s.latchIr w).report.retire := by
  have hne (o : BitVec 4) (ho : o.toNat ∈ [1, 2, 3, 4, 15]) : opcodeOf w ≠ o := by
    simp only [List.mem_cons, List.not_mem_nil, or_false] at ho
    exact opcodeOf_ne_of_div (by omega)
  exact step_of_wordEffect h (.unknown (hne _ (by decide)) (hne _ (by decide)) (hne _ (by decide)) (hne _ (by decide))
    (hne _ (by decide)))

/-! ### The instructions -/

/-- Settles O12: the arm of each of the eleven is `unknownOpcode`, and an executed word of these opcodes makes the same
effect on the state that latched it. -/
theorem reservedOpcodesReportAndGoOn : Obligations.ReservedOpcodesReportAndGoOn := by
  refine ⟨fun s low i hi => ?_, fun s w => step_of_executes_reserved⟩
  simp only [List.mem_cons, List.not_mem_nil, or_false] at hi
  rcases hi with rfl | rfl | rfl | rfl | rfl | rfl | rfl | rfl | rfl | rfl | rfl <;> exact unknownOpcode_eq s

/-- Settles O10: the effect with the target of each value of `JUMP_COMPAT`, and the fields of a word of opcode 4. -/
theorem jumpSetsProgramCounter : Obligations.JumpSetsProgramCounter := by
  refine ⟨fun s ignored value h => ?_, fun s ignored value h => ?_, fun _ => decode_of_jump_word⟩
  · rw [← jumpTarget_of_not_compat h]
    exact execJump_eq ignored value s
  · exact ⟨_, execJump_eq ignored value s, jumpTarget_toNat_of_compat h value, rfl⟩

/-- Settles O11: the effect of HALT, and the step on a word of 0xF000 or more, which has opcode 0xF. -/
theorem haltEndsTheRun : Obligations.HaltEndsTheRun :=
  ⟨fun s ignored => execHalt_eq ignored s, fun _ _ h hw => step_of_executes_halt h (opcodeOf_of_halt_word hw)⟩

/-- Settles O13: the effect of END, and the iteration that fetches the sentinel. -/
theorem sentinelEndsTheRunWithoutAStep : Obligations.SentinelEndsTheRunWithoutAStep :=
  ⟨execEndOfProgram_eq, fun _ => step_of_fetches_sentinelWord⟩

end Sys2Proof.Machine
end

section
/-! PROOFS. The run loop and the run's status (42_sequencer_and_host.md R140 to R148): an iteration of a run keeps the
status, or ends the run by the one operation `stop`, from which the outcome is read back. -/

namespace Sys2Proof.Machine

/-! ### The outcome that the status registers hold -/

/-- The status that the end of a run leaves determines the outcome (60_exceptions.md R180, R181). -/
@[simp] theorem State.outcome_stop (s : State) (o : RunEnd) : (s.stop o).outcome = some o := by
  cases o with
  | outOfRange k v => cases k <;> rfl
  | haltOpcode | sentinel | stepLimit => rfl

theorem State.runResult_of_no_cause {s : State} (h : s.cause = .none) : s.runResult = none := by
  simp [State.runResult, State.outcome, h]

theorem State.runResult_stop (s : State) (o : RunEnd) :
    (s.stop o).runResult = some { outcome := o, reports := s.reports, steps := s.stepCount, pc := s.pc } := by
  simp [State.runResult]

/-- Which outcomes end a run in which `STATE` (42_sequencer_and_host.md R145). -/
theorem RunEnd.runState_cases (o : RunEnd) :
    (o.runState = .halted ∧ (o = .haltOpcode ∨ o = .sentinel)) ∨
    (o.runState = .stopped ∧ ((∃ k v, o = .outOfRange k v) ∨ o = .stepLimit)) := by
  cases o with
  | haltOpcode => exact .inl ⟨rfl, .inl rfl⟩
  | sentinel => exact .inl ⟨rfl, .inr rfl⟩
  | outOfRange k v => exact .inr ⟨rfl, .inl ⟨k, v, rfl⟩⟩
  | stepLimit => exact .inr ⟨rfl, .inr rfl⟩

/-! ### What an iteration of a run does to the status -/

theorem WordEffect.goes_on_or_stops {w : Word} {s t : State} (h : WordEffect w s t) :
    (t.runState = s.runState ∧ t.cause = s.cause) ∨ ∃ u o, t = State.stop u o := by
  cases h with
  | fault => exact .inr ⟨_, _, rfl⟩
  | halt => exact .inr ⟨_, _, rfl⟩
  | load | add | store | jump | unknown => exact .inl ⟨rfl, rfl⟩

theorem step_goes_on_or_stops {s t : State} (h : step s = .next t) :
    (t.runState = s.runState ∧ t.cause = s.cause) ∨ (s.runState = .running ∧ ∃ u o, t = State.stop u o) := by
  by_cases hrun : s.runState = .running
  · rcases step_holds_or_ends_or_executes h with ⟨-, rfl⟩ | ⟨o, -, rfl⟩ | ⟨w, -, heffect⟩
    · exact .inl ⟨rfl, rfl⟩
    · exact .inr ⟨hrun, s, o, rfl⟩
    · exact heffect.goes_on_or_stops.imp id fun hstop => ⟨hrun, hstop⟩
  · obtain ⟨hok, -⟩ := step_next h
    rw [step_of_not_running hok hrun] at h
    cases h
    exact .inl ⟨rfl, rfl⟩

theorem hostCommand_runState {c : HostCommand} {s t : State} {r : HostReply} (h : hostCommand c s = .next (t, r)) :
    (c = .start ∧ s.runState ≠ .running ∧ t.runState = .running) ∨ (c ≠ .start ∧ t.runState = s.runState) := by
  by_cases hc : c = .start
  · subst hc
    obtain ⟨hrun, hanswer⟩ := betweenRuns_next.1 h
    cases hanswer
    exact .inl ⟨rfl, hrun, rfl⟩
  · refine .inr ⟨hc, ?_⟩
    rcases hostCommand_next h with rfl | ⟨-, hstart, -⟩ | ⟨-, ws, -, rfl⟩
    · rfl
    · exact absurd hstart hc
    · rfl

/-- Settles O21: an iteration keeps `STATE` or ends a run, whose `STATE` is its outcome's; `start` is the only command that
moves `STATE`. -/
theorem runStateMovesOnlyAsListed : Obligations.RunStateMovesOnlyAsListed := by
  refine ⟨State.powerOn_runState, fun s t h hrun => ?_, fun s t h hrun => ?_, fun _ _ _ _ => hostCommand_runState⟩
  · rcases step_goes_on_or_stops h with ⟨hstate, -⟩ | ⟨hrunning, -⟩
    · exact hstate
    · exact absurd hrunning hrun
  · rcases step_goes_on_or_stops h with ⟨hstate, -⟩ | ⟨-, u, o, rfl⟩
    · exact .inl (hstate.trans hrun)
    · exact .inr (by simpa using o.runState_cases)

/-- Settles O23: a run that goes on has kept CAUSE NONE, and one that ended holds the outcome it was stopped with. -/
theorem endedRunHasItsResult : Obligations.EndedRunHasItsResult := by
  intro s t hrun hcause h
  rcases step_goes_on_or_stops h with ⟨hstate, hkept⟩ | ⟨-, u, o, rfl⟩
  · exact ⟨fun _ => State.runResult_of_no_cause (hkept.trans hcause), fun hended => absurd (hstate.trans hrun) hended⟩
  · exact ⟨fun hgoes => absurd hgoes o.runState_ne_running, fun _ => ⟨o, rfl, rfl, rfl, State.runResult_stop u o⟩⟩

/-! ### A JUMP to its own address -/

theorem step_of_self_jump {s : State} {w : Word} (h : s.Executes w) (hop : opcodeOf w = 0x4#4)
    (hcompat : s.params.jumpCompat = false) (hself : (valueOf w).toNat = s.pc.toNat) :
    step s = .next (s.latchIr w).countStep := by
  have htarget : jumpTarget s.params (valueOf w) = s.pc := by
    apply BitVec.eq_of_toNat_eq
    rw [jumpTarget_toNat, hcompat, hself]
    rfl
  have hjump := step_of_wordEffect h (.jump hop)
  rwa [State.latchIr_params, htarget] at hjump

/-- Without a step limit a step that leaves `pc` and memory is made again. -/
theorem State.Executes.latchIr_countStep {s : State} {w : Word} (h : s.Executes w) (hlimit : s.params.stepLimit = none) :
    (s.latchIr w).countStep.Executes w := by
  obtain ⟨⟨hok, hrun, hin, hword⟩, hsentinel, -⟩ := h
  exact ⟨⟨hok, hrun, hin, hword⟩, hsentinel, by simp [hlimit]⟩

/-- Settles O28: by induction on the number of steps; each step leaves everything but `IR` and the step count. -/
theorem jumpToItselfNeverEnds : Obligations.JumpToItselfNeverEnds := by
  intro s w h hcause hlimit hcompat hop hself n
  induction n generalizing s with
  | zero => exact ⟨s, rfl, h.fetches.running, rfl, rfl, rfl, State.runResult_of_no_cause hcause⟩
  | succ n ih =>
    rw [runSteps_succ_of_next (step_of_self_jump h hop hcompat hself)]
    exact ih (s.latchIr w).countStep (h.latchIr_countStep hlimit) hcause hlimit hcompat hself

/-! ### The first iteration of a run -/

theorem Params.memWords_pos_of_ok {p : Params} (h : p.ok = true) : 0 < p.memWords := by
  simp only [Params.ok, Bool.and_eq_true, decide_eq_true_eq] at h
  exact h.1

/-- Admitted parameters give at least the cell 0, so a run's first iteration fetches (00_scope.md R8). -/
theorem State.startRun_fetches {s : State} (hok : s.params.ok = true) : s.startRun.Fetches (s.peek 0) :=
  ⟨hok, rfl, Params.memWords_pos_of_ok hok, rfl⟩

/-- The faults of a word are those of its operands. -/
theorem FaultsWith.cause_ne_oorFetch {n : Nat} {w : Word} {o : RunEnd} (h : FaultsWith n w o) : o.cause ≠ .oorFetch := by
  cases h <;> exact nofun

theorem WordEffect.cause_ne_oorFetch {w : Word} {s t : State} (h : WordEffect w s t) (hcause : s.cause ≠ .oorFetch) :
    t.cause ≠ .oorFetch := by
  cases h with
  | fault hfault => exact hfault.cause_ne_oorFetch
  | halt => exact nofun
  | load | add | store | jump | unknown => exact hcause

/-- Inside memory the fetch raises nothing (60_exceptions.md R184). -/
theorem step_cause_ne_oorFetch {s t : State} (h : step s = .next t) (hin : s.pc.toNat < s.params.memWords)
    (hcause : s.cause ≠ .oorFetch) : t.cause ≠ .oorFetch := by
  obtain ⟨hok, ⟨-, rfl⟩ | ⟨-, hout, -⟩ | ⟨-, -, -, rfl⟩ | ⟨-, -, -, -, rfl⟩ | ⟨hrun, -, hsentinel, hlimit, -⟩⟩ :=
    step_next h
  · exact hcause
  · exact absurd hin (Nat.not_lt.2 hout)
  · exact nofun
  · exact nofun
  · have hexec : s.Executes (s.peek s.pc.toNat) := ⟨⟨hok, hrun, hin, rfl⟩, hsentinel, hlimit⟩
    exact (wordEffect_of_executes hexec h).cause_ne_oorFetch hcause

/-- Settles O37: the first iteration fetches the word at address 0, and the sentinel test stands before the step limit. -/
theorem runsWithoutAStep : Obligations.RunsWithoutAStep := by
  refine ⟨fun s hok hword => ?_, fun s hok hword hlimit => ?_, fun s t hok h => ?_⟩
  · exact step_of_fetches_sentinelWord (hword ▸ State.startRun_fetches hok)
  · exact step_of_limit_reached (State.startRun_fetches hok) hword hlimit
  · exact step_cause_ne_oorFetch h (State.startRun_fetches hok).inRange nofun

/-! ### The dispatch -/

/-- Settles O14: away from the sentinel `decode` is the opcode map that the step dispatches on. -/
theorem stepRunsTheDecodedInstruction : Obligations.StepRunsTheDecodedInstruction := by
  refine ⟨fun s w h => ?_, fun s h => ?_⟩
  · rw [decode_of_ne_sentinelWord h.notSentinel]
    exact ⟨step_of_executes h, decodeOpcode_wellFormed h.notSentinel⟩
  · exact step_of_fetches_sentinelWord h

end Sys2Proof.Machine
end

section
/-! PROOFS. The image text (42_sequencer_and_host.md R151): the hexadecimal digits, the value of a token, and the tokens of a
stream. -/

namespace Sys2Proof.Machine

/-! ### Digits -/

/-- The hexadecimal digits with their values, as 42_sequencer_and_host.md R151 lists them. -/
def hexDigitTable : List (Char × Nat) :=
  [('0', 0), ('1', 1), ('2', 2), ('3', 3), ('4', 4), ('5', 5), ('6', 6), ('7', 7), ('8', 8), ('9', 9),
   ('a', 10), ('b', 11), ('c', 12), ('d', 13), ('e', 14), ('f', 15),
   ('A', 10), ('B', 11), ('C', 12), ('D', 13), ('E', 14), ('F', 15)]

theorem hexDigit_of_mem_table : ∀ p ∈ hexDigitTable, hexDigit p.1 = some p.2 := by decide

theorem toNat_le_of_hexDigit {c : Char} {n : Nat} (h : hexDigit c = some n) : c.toNat ≤ 102 := by
  simp only [hexDigit] at h
  grind

theorem mem_table_of_hexDigit_ofNat : ∀ k ≤ 102, ∀ n ∈ hexDigit (Char.ofNat k), (Char.ofNat k, n) ∈ hexDigitTable := by decide

/-- A digit's code is at most that of `f`, and below it each code is looked at once. -/
theorem hexDigit_eq_some_iff (c : Char) (n : Nat) : hexDigit c = some n ↔ (c, n) ∈ hexDigitTable := by
  refine ⟨fun h => ?_, hexDigit_of_mem_table (c, n)⟩
  have hmem := mem_table_of_hexDigit_ofNat c.toNat (toNat_le_of_hexDigit h)
  rw [Char.ofNat_toNat] at hmem
  exact hmem n h

theorem hexDigit_lt {c : Char} {n : Nat} (h : hexDigit c = some n) : n < 16 := by
  have hall : ∀ p ∈ hexDigitTable, p.2 < 16 := by decide
  exact hall (c, n) ((hexDigit_eq_some_iff c n).1 h)

/-! ### Values -/

/-- The number that digits stand for, read most-significant first after the value `acc` of those before. -/
def digitsValue (acc : Nat) (ps : List (Char × Nat)) : Nat := ps.foldl (fun n p => n * 16 + p.2) acc

theorem hexValue_map_fst (ps : List (Char × Nat)) (acc : Nat) (h : ∀ p ∈ ps, hexDigit p.1 = some p.2) :
    hexValue acc (ps.map Prod.fst) = some (digitsValue acc ps) := by
  induction ps generalizing acc with
  | nil => rfl
  | cons p ps ih =>
    obtain ⟨hp, hps⟩ := List.forall_mem_cons.1 h
    simp only [List.map_cons, hexValue, hp]
    exact ih _ hps

/-- Each digit brings one factor 16. -/
theorem digitsValue_lt (ps : List (Char × Nat)) (acc : Nat) (h : ∀ p ∈ ps, hexDigit p.1 = some p.2) :
    digitsValue acc ps < (acc + 1) * 16 ^ ps.length := by
  induction ps generalizing acc with
  | nil => simp [digitsValue]
  | cons p ps ih =>
    obtain ⟨hp, hps⟩ := List.forall_mem_cons.1 h
    have hdigit := hexDigit_lt hp
    calc digitsValue acc (p :: ps)
        < (acc * 16 + p.2 + 1) * 16 ^ ps.length := ih _ hps
      _ ≤ ((acc + 1) * 16) * 16 ^ ps.length := Nat.mul_le_mul_right _ (by omega)
      _ = (acc + 1) * 16 ^ (p :: ps).length := by rw [List.length_cons, Nat.pow_succ', Nat.mul_assoc]

theorem hexValue_isSome (cs : List Char) (acc : Nat) :
    (hexValue acc cs).isSome = true ↔ ∀ c ∈ cs, (hexDigit c).isSome = true := by
  induction cs generalizing acc with
  | nil => simp [hexValue]
  | cons c cs ih =>
    rw [List.forall_mem_cons]
    cases hc : hexDigit c with
    | none => simp [hexValue, hc]
    | some d => simp [hexValue, hc, ih]

/-! ### Tokens -/

theorem dropHexPrefix_of_no_prefix {t : List Char} (h : ∀ ds, t ≠ '0' :: 'x' :: ds ∧ t ≠ '0' :: 'X' :: ds) :
    dropHexPrefix t = t := by
  unfold dropHexPrefix
  split
  · exact absurd rfl (h _).1
  · exact absurd rfl (h _).2
  · rfl

/-- Neither `x` nor `X` is a digit. -/
theorem dropHexPrefix_of_digits {ds : List Char} (h : ∀ c ∈ ds, (hexDigit c).isSome = true) : dropHexPrefix ds = ds := by
  have hx : hexDigit 'x' = none := by decide
  have hX : hexDigit 'X' = none := by decide
  apply dropHexPrefix_of_no_prefix
  intro rest
  constructor <;> rintro rfl <;> simp [hx, hX] at h

theorem parseToken_isSome (t : List Char) :
    (parseToken t).isSome = true ↔ 1 ≤ (dropHexPrefix t).length ∧ (dropHexPrefix t).length ≤ 4 ∧
      ∀ c ∈ dropHexPrefix t, (hexDigit c).isSome = true := by
  simp only [parseToken]
  split <;> rename_i hlength
  · rw [Option.isSome_map, hexValue_isSome]
    exact ⟨fun h => ⟨hlength.1, hlength.2, h⟩, fun ⟨_, _, h⟩ => h⟩
  · simp only [Option.isSome_none, Bool.false_eq_true, false_iff]
    exact fun ⟨hmin, hmax, _⟩ => hlength ⟨hmin, hmax⟩

/-- Tokens with the same digits are the same word, with or without `0x`. -/
theorem parseToken_congr {t u : List Char} (h : dropHexPrefix t = dropHexPrefix u) : parseToken t = parseToken u := by
  rw [parseToken, h, ← parseToken]

section Digits

variable {ps : List (Char × Nat)} (hdigits : ∀ p ∈ ps, hexDigit p.1 = some p.2)
include hdigits

theorem dropHexPrefix_map_fst : dropHexPrefix (ps.map Prod.fst) = ps.map Prod.fst := by
  apply dropHexPrefix_of_digits
  simp only [List.forall_mem_map]
  intro p hp
  rw [hdigits p hp]
  rfl

theorem parseToken_map_fst (hmin : 1 ≤ ps.length) (hmax : ps.length ≤ 4) :
    parseToken (ps.map Prod.fst) = some (BitVec.ofNat 16 (digitsValue 0 ps)) := by
  simp [parseToken, dropHexPrefix_map_fst hdigits, hexValue_map_fst ps 0 hdigits, hmin, hmax]

theorem digitsValue_lt_of_length_le (hmax : ps.length ≤ 4) : digitsValue 0 ps < 2 ^ 16 :=
  calc digitsValue 0 ps
      < (0 + 1) * 16 ^ ps.length := digitsValue_lt ps 0 hdigits
    _ ≤ (0 + 1) * 16 ^ 4 := Nat.mul_le_mul_left _ (Nat.pow_le_pow_right (by decide) hmax)
    _ = 2 ^ 16 := by decide

end Digits

theorem parseToken_four_digits {a b c d : Char} {i j k l : Nat} (ha : hexDigit a = some i) (hb : hexDigit b = some j)
    (hc : hexDigit c = some k) (hd : hexDigit d = some l) :
    parseToken [a, b, c, d] = some (BitVec.ofNat 16 (i * 4096 + j * 256 + k * 16 + l)) := by
  have hdigits : ∀ p ∈ [(a, i), (b, j), (c, k), (d, l)], hexDigit p.1 = some p.2 := by simp [ha, hb, hc, hd]
  have hvalue : digitsValue 0 [(a, i), (b, j), (c, k), (d, l)] = i * 4096 + j * 256 + k * 16 + l := by
    simp only [digitsValue, List.foldl_cons, List.foldl_nil]
    omega
  rw [← hvalue]
  exact parseToken_map_fst hdigits (by simp) (by simp)

/-- Settles O41: the digits by their table, the tokens by their digits after the optional `0x`. -/
theorem tokensAreOneToFourHexDigits : Obligations.TokensAreOneToFourHexDigits := by
  refine ⟨hexDigit_eq_some_iff, parseToken_isSome, fun ds => ⟨rfl, rfl⟩, fun t => dropHexPrefix_of_no_prefix,
    fun ps hdigits hmin hmax => ?_, fun a b c d i j k l => parseToken_four_digits⟩
  have hdrop := dropHexPrefix_map_fst hdigits
  exact ⟨digitsValue_lt_of_length_le hdigits hmax, parseToken_map_fst hdigits hmin hmax,
    parseToken_congr hdrop.symm, parseToken_congr hdrop.symm⟩

/-! ### The tokens of a stream -/

theorem isImageSpace_iff (c : Char) : isImageSpace c = true ↔ c ∈ [' ', '\t', '\r', '\n'] := by
  simp [isImageSpace, or_assoc]

theorem tokensFrom_skip_spaces {gap : List Char} (h : ∀ c ∈ gap, isImageSpace c = true) (cs : List Char) :
    tokensFrom [] (gap ++ cs) = tokensFrom [] cs := by
  induction gap with
  | nil => rfl
  | cons c gap ih =>
    obtain ⟨hc, hgap⟩ := List.forall_mem_cons.1 h
    simpa [tokensFrom, hc] using ih hgap

/-- The characters of a token are gathered, last first. -/
theorem tokensFrom_gather {tok : List Char} (h : ∀ c ∈ tok, isImageSpace c = false) (cur cs : List Char) :
    tokensFrom cur (tok ++ cs) = tokensFrom (tok.reverse ++ cur) cs := by
  induction tok generalizing cur with
  | nil => rfl
  | cons c tok ih =>
    obtain ⟨hc, htok⟩ := List.forall_mem_cons.1 h
    simpa [tokensFrom, hc] using ih htok (c :: cur)

theorem tokensFrom_nil (cur : List Char) : tokensFrom cur [] = if cur = [] then [] else [cur.reverse] := by
  cases cur <;> rfl

/-- A token ends at the whitespace after it. -/
theorem tokensFrom_token {tok gap : List Char} (htok : tok ≠ [] ∧ ∀ c ∈ tok, isImageSpace c = false)
    (hgap : gap ≠ [] ∧ ∀ c ∈ gap, isImageSpace c = true) (cs : List Char) :
    tokensFrom [] (tok ++ gap ++ cs) = tok :: tokensFrom [] cs := by
  obtain ⟨hne, hword⟩ := htok
  obtain ⟨hgapne, hspaces⟩ := hgap
  obtain ⟨c, gap, rfl⟩ := List.exists_cons_of_ne_nil hgapne
  obtain ⟨hc, hgap⟩ := List.forall_mem_cons.1 hspaces
  rw [List.append_assoc, tokensFrom_gather hword, List.append_nil, List.cons_append]
  simp [tokensFrom, hc, hne, tokensFrom_skip_spaces hgap]

theorem tokensFrom_last {last : List Char} (h : ∀ c ∈ last, isImageSpace c = false) :
    tokensFrom [] last = if last = [] then [] else [last] := by
  have hgather := tokensFrom_gather h [] []
  simpa [tokensFrom_nil] using hgather

/-- By induction on the tokens, each of which ends at its whitespace. -/
theorem tokensFrom_flatMap (ts : List (List Char × List Char)) {last : List Char}
    (htok : ∀ p ∈ ts, p.1 ≠ [] ∧ ∀ c ∈ p.1, isImageSpace c = false)
    (hgap : ∀ p ∈ ts, p.2 ≠ [] ∧ ∀ c ∈ p.2, isImageSpace c = true) (hlast : ∀ c ∈ last, isImageSpace c = false) :
    tokensFrom [] ((ts.flatMap fun p => p.1 ++ p.2) ++ last) =
      ts.map Prod.fst ++ if last = [] then [] else [last] := by
  induction ts with
  | nil => exact tokensFrom_last hlast
  | cons p ts ih =>
    obtain ⟨hp, hts⟩ := List.forall_mem_cons.1 htok
    obtain ⟨hq, hgaps⟩ := List.forall_mem_cons.1 hgap
    rw [List.flatMap_cons, List.append_assoc, tokensFrom_token hp hq, ih hts hgaps]
    rfl

theorem ImageForm.imageTokens_eq {lead : List Char} {ts : List (List Char × List Char)} {last : List Char}
    (h : ImageForm lead ts last) :
    imageTokens (lead ++ (ts.flatMap fun p => p.1 ++ p.2) ++ last) =
      ts.map Prod.fst ++ if last = [] then [] else [last] := by
  rw [imageTokens, List.append_assoc, tokensFrom_skip_spaces h.lead]
  exact tokensFrom_flatMap ts h.token h.gap h.last

/-! ### Every stream has the form -/

theorem ImageForm.nil : ImageForm [] [] [] := by
  constructor <;> simp

section Cons

variable {lead last : List Char} {ts : List (List Char × List Char)} {c : Char}

/-- A whitespace character before a stream is leading whitespace. -/
theorem ImageForm.cons_space (h : ImageForm lead ts last) (hc : isImageSpace c = true) : ImageForm (c :: lead) ts last :=
  ⟨List.forall_mem_cons.2 ⟨hc, h.lead⟩, h.token, h.gap, h.last⟩

/-- Another character before leading whitespace is a token of its own. -/
theorem ImageForm.cons_new_token (h : ImageForm lead ts last) (hc : isImageSpace c = false) (hlead : lead ≠ []) :
    ImageForm [] (([c], lead) :: ts) last :=
  ⟨by simp, List.forall_mem_cons.2 ⟨by simp [hc], h.token⟩, List.forall_mem_cons.2 ⟨⟨hlead, h.lead⟩, h.gap⟩, h.last⟩

/-- Before a token it begins that token. -/
theorem ImageForm.cons_first_token {tok gap : List Char} (h : ImageForm [] ((tok, gap) :: ts) last)
    (hc : isImageSpace c = false) : ImageForm [] ((c :: tok, gap) :: ts) last := by
  obtain ⟨⟨-, htok⟩, hts⟩ := List.forall_mem_cons.1 h.token
  have hfirst : ∀ x ∈ c :: tok, isImageSpace x = false := List.forall_mem_cons.2 ⟨hc, htok⟩
  have hgap := List.forall_mem_cons.1 h.gap
  exact ⟨h.lead, List.forall_mem_cons.2 ⟨⟨List.cons_ne_nil _ _, hfirst⟩, hts⟩, List.forall_mem_cons.2 hgap, h.last⟩

/-- Where no token has whitespace after it, it begins the last one. -/
theorem ImageForm.cons_last (h : ImageForm [] [] last) (hc : isImageSpace c = false) : ImageForm [] [] (c :: last) :=
  ⟨h.lead, h.token, h.gap, List.forall_mem_cons.2 ⟨hc, h.last⟩⟩

end Cons

/-- By induction on the stream, from what its first character begins. -/
theorem exists_imageForm (cs : List Char) :
    ∃ lead ts last, ImageForm lead ts last ∧ cs = lead ++ (ts.flatMap fun p => p.1 ++ p.2) ++ last := by
  induction cs with
  | nil => exact ⟨[], [], [], .nil, rfl⟩
  | cons c cs ih =>
    obtain ⟨lead, ts, last, h, rfl⟩ := ih
    cases hc : isImageSpace c with
    | true => exact ⟨c :: lead, ts, last, h.cons_space hc, rfl⟩
    | false =>
      cases lead with
      | cons d lead => exact ⟨[], _, last, h.cons_new_token hc (List.cons_ne_nil d lead), by simp⟩
      | nil =>
        cases ts with
        | cons p ts => exact ⟨[], (c :: p.1, p.2) :: ts, last, h.cons_first_token hc, rfl⟩
        | nil => exact ⟨[], [], c :: last, h.cons_last hc, rfl⟩

/-- Settles O42: each token of a form ends at the whitespace after it, and every stream has a form. -/
theorem separatedTokensAreReadBack : Obligations.SeparatedTokensAreReadBack :=
  ⟨isImageSpace_iff, fun _ _ _ => ImageForm.imageTokens_eq, exists_imageForm⟩

end Sys2Proof.Machine
end

section
/-! PROOFS. The host port (42_sequencer_and_host.md R150 to R158): which commands a run refuses, what each one answers, and
what `load_image` writes or leaves. -/

namespace Sys2Proof.Machine

/-! ### Commands between runs and during a run -/

theorem betweenRuns_of_running {s : State} (h : s.runState = .running) (answer : State × HostReply) :
    betweenRuns s answer = .refused .hostCommandDuringRun := by
  rw [betweenRuns, h]

theorem betweenRuns_of_not_running {s : State} (h : s.runState ≠ .running) (answer : State × HostReply) :
    betweenRuns s answer = .next answer :=
  betweenRuns_next.2 ⟨h, rfl⟩

/-- Settles O38: every command but `read_status` goes through `betweenRuns`. -/
theorem hostHasNoMoveDuringARun : Obligations.HostHasNoMoveDuringARun := by
  intro s c hrun
  cases c with
  | loadImage | start | dumpRegisters | dumpMemory => exact ⟨fun _ => betweenRuns_of_running hrun _, nofun⟩
  | readStatus => exact ⟨fun h => absurd rfl h, fun _ => rfl⟩

theorem State.dumpMemory_of_inside {s : State} {lo count : Nat} (h : lo + count ≤ s.params.memWords) :
    s.dumpMemory lo count = .words ((List.range count).map fun i => s.peek (lo + i)) :=
  if_neg (Nat.not_lt.2 h)

theorem State.dumpMemory_of_outside {s : State} {lo count : Nat} (h : s.params.memWords < lo + count) :
    s.dumpMemory lo count = .rangeOutOfRange :=
  if_pos h

/-- Settles O43: each read's answer between runs, its refusal during a run, and `read_status` at any time. -/
theorem hostReadsReturnTheState : Obligations.HostReadsReturnTheState := by
  refine ⟨fun s hrun => betweenRuns_of_not_running hrun _, fun s lo count hrun hin => ?_, fun s lo count hrun hout => ?_,
    fun s lo count hrun => ⟨betweenRuns_of_running hrun _, betweenRuns_of_running hrun _⟩, fun _ => rfl⟩
  · refine ⟨(List.range count).map fun i => s.peek (lo + i), ?_, by simp, by simp⟩
    rw [← State.dumpMemory_of_inside hin]
    exact betweenRuns_of_not_running hrun _
  · rw [← State.dumpMemory_of_outside hout]
    exact betweenRuns_of_not_running hrun _

/-! ### The invariant -/

theorem State.Inv.startRun {s : State} (h : s.Inv) : s.startRun.Inv :=
  ⟨h.params, h.regs, Nat.zero_le _, h.mem, ⟨.inr rfl, rfl⟩, fun _ _ => Nat.zero_le _⟩

theorem State.Inv.writeWords {s : State} (h : s.Inv) {ws : List Word} (hlen : ws.length ≤ s.params.memWords) :
    (s.setMem (s.mem.writeAll 0 ws)).Inv := by
  obtain ⟨hwf, hwithin⟩ := h.mem
  have hmem : (s.setMem (s.mem.writeAll 0 ws)).memOk :=
    ⟨Memory.wf_writeAll ws _ hwf 0, Memory.within_writeAll _ ws _ hwithin 0 ((Nat.zero_add _).trans_le hlen)⟩
  exact ⟨h.params, h.regs, h.pc, hmem, h.status, h.count⟩

/-- Settles O31: a command leaves the state, starts a run, or writes words that fit the memory. -/
theorem hostCommandsKeepInvariant : Obligations.HostCommandsKeepInvariant := by
  intro s t c r h hhost
  rcases hostCommand_next hhost with rfl | ⟨-, -, rfl⟩ | ⟨-, ws, hlen, rfl⟩
  · exact h
  · exact h.startRun
  · exact h.writeWords hlen

/-! ### Consecutive writes -/

theorem Memory.read_writeAll_below (ws : List Word) {m : Memory} (hm : m.wf = true) {a b : Nat} (h : b < a) :
    (m.writeAll a ws).read b = m.read b := by
  induction ws generalizing m a with
  | nil => rfl
  | cons w ws ih =>
    have hrest : ((m.write a w).writeAll (a + 1) ws).read b = (m.write a w).read b :=
      ih (Memory.wf_write m hm a w) (Nat.lt_succ_of_lt h)
    exact hrest.trans (Memory.read_write_other m hm a w (Nat.ne_of_lt h))

/-- From address `a` on a cell reads as its word, and past the last word as before. -/
theorem Memory.read_writeAll_from (ws : List Word) {m : Memory} (hm : m.wf = true) (a i : Nat) :
    (m.writeAll a ws).read (a + i) = ws[i]?.getD (m.read (a + i)) := by
  induction ws generalizing m a i with
  | nil => rfl
  | cons w ws ih =>
    have hwf := Memory.wf_write m hm a w
    cases i with
    | zero => exact (Memory.read_writeAll_below ws hwf (Nat.lt_succ_self a)).trans (Memory.read_write_same m hm a w)
    | succ i =>
      have hother : (m.write a w).read (a + (i + 1)) = m.read (a + (i + 1)) :=
        Memory.read_write_other m hm a w (by omega)
      have hrest := ih hwf (a + 1) i
      rw [Nat.add_right_comm, Nat.add_assoc, hother] at hrest
      rw [List.getElem?_cons_succ]
      exact hrest

theorem Memory.read_writeAll_zero (ws : List Word) {m : Memory} (hm : m.wf = true) (i : Nat) :
    (m.writeAll 0 ws).read i = ws[i]?.getD (m.read i) := by
  simpa using Memory.read_writeAll_from ws hm 0 i

/-! ### The checks of the loader -/

theorem parseTokens_of_words {ts : List (List Char)} {ws : List Word} (h : ts.map parseToken = ws.map some) (i : Nat) :
    parseTokens i ts = .ok ws := by
  induction ts generalizing ws i with
  | nil =>
    cases ws with
    | nil => rfl
    | cons => simp at h
  | cons t ts ih =>
    cases ws with
    | nil => simp at h
    | cons w ws =>
      obtain ⟨hw, hws⟩ := List.cons.inj h
      simp [parseTokens, hw, ih hws]

theorem exists_words_of_parseToken {ts : List (List Char)} (h : ∀ t ∈ ts, parseToken t ≠ none) :
    ∃ ws : List Word, ts.map parseToken = ws.map some := by
  induction ts with
  | nil => exact ⟨[], rfl⟩
  | cons t ts ih =>
    obtain ⟨ht, hts⟩ := List.forall_mem_cons.1 h
    obtain ⟨w, hw⟩ := Option.ne_none_iff_exists'.1 ht
    obtain ⟨ws, hws⟩ := ih hts
    exact ⟨w :: ws, by simp [hw, hws]⟩

/-- The first malformed token is the one that is reported (42_sequencer_and_host.md R152). -/
theorem parseTokens_of_malformed {before after : List (List Char)} {bad : List Char}
    (hbefore : ∀ t ∈ before, parseToken t ≠ none) (hbad : parseToken bad = none) (i : Nat) :
    parseTokens i (before ++ bad :: after) = .error (.parseError (i + before.length) bad) := by
  induction before generalizing i with
  | nil => simp [parseTokens, hbad]
  | cons t before ih =>
    obtain ⟨ht, hbefore⟩ := List.forall_mem_cons.1 hbefore
    obtain ⟨w, hw⟩ := Option.ne_none_iff_exists'.1 ht
    simp [parseTokens, hw, ih hbefore, Nat.add_assoc, Nat.add_comm 1]

theorem checkImage_of_words {n : Nat} {cs : List Char} {ws : List Word}
    (h : (imageTokens cs).map parseToken = ws.map some) :
    checkImage n (some cs) =
      if n < (imageTokens cs).length then .error (.imageTooLarge (imageTokens cs).length) else .ok ws := by
  simp only [checkImage, parseTokens_of_words h]

theorem checkImage_of_malformed {n : Nat} {cs : List Char} {before after : List (List Char)} {bad : List Char}
    (hcs : imageTokens cs = before ++ bad :: after) (hbefore : ∀ t ∈ before, parseToken t ≠ none)
    (hbad : parseToken bad = none) :
    checkImage n (some cs) =
      if decide (n < (imageTokens cs).length) && Config.tooLargeReportedFirst then
        .error (.imageTooLarge (imageTokens cs).length)
      else .error (.parseError before.length bad) := by
  have hparse : parseTokens 0 (imageTokens cs) = .error (.parseError before.length bad) := by
    rw [hcs, parseTokens_of_malformed hbefore hbad, Nat.zero_add]
  simp only [checkImage, hparse]

/-! ### The loader -/

theorem loadImage_succeeds {s : State} {source : Option (List Char)} {ws : List Word} (hrun : s.runState ≠ .running)
    (h : checkImage s.params.memWords source = .ok ws) :
    hostCommand (.loadImage source) s = .next (s.setMem (s.mem.writeAll 0 ws), .loaded) := by
  rw [hostCommand, betweenRuns_of_not_running hrun, State.loadImage, h]

/-- A failed check leaves the whole state (42_sequencer_and_host.md R152). -/
theorem loadImage_fails {s : State} {source : Option (List Char)} {e : LoadFailure} (hrun : s.runState ≠ .running)
    (h : checkImage s.params.memWords source = .error e) :
    hostCommand (.loadImage source) s = .next (s, .loadFailed e) := by
  rw [hostCommand, betweenRuns_of_not_running hrun, State.loadImage, h]

/-- Settles O39: the checks pass, and consecutive writes from 0 are read back. -/
theorem loadImageWritesItsTokens : Obligations.LoadImageWritesItsTokens := by
  intro s cs ws hrun hwf htokens hlen
  have hcount : (imageTokens cs).length = ws.length := by simpa using congrArg List.length htokens
  have hcheck : checkImage s.params.memWords (some cs) = .ok ws := by
    rw [checkImage_of_words htokens, hcount, if_neg (Nat.not_lt.2 hlen)]
  have hread := Memory.read_writeAll_zero ws hwf
  refine ⟨_, loadImage_succeeds hrun hcheck, fun i hi => ?_, fun i hi => ?_, rfl⟩
  · exact (hread i).trans (by rw [List.getElem?_eq_getElem hi, Option.getD_some])
  · exact (hread i).trans (by rw [List.getElem?_eq_none hi, Option.getD_none]; rfl)

/-- Settles O40: each error is the answer of the checks, which stand before any write. -/
theorem failedLoadChangesNothing : Obligations.FailedLoadChangesNothing := by
  intro s hrun
  refine ⟨loadImage_fails hrun rfl, fun cs before after bad hcs hbefore hbad => ?_, fun cs hwords hlarge => ?_⟩
  · have hcheck := checkImage_of_malformed (n := s.params.memWords) hcs hbefore hbad
    refine ⟨fun hfits => ?_, fun hlarge => ?_⟩
    · rw [decide_eq_false (Nat.not_lt.2 hfits)] at hcheck
      exact loadImage_fails hrun hcheck
    · rw [decide_eq_true hlarge, Bool.true_and] at hcheck
      split at hcheck
      · exact .inr (loadImage_fails hrun hcheck)
      · exact .inl (loadImage_fails hrun hcheck)
  · obtain ⟨ws, htokens⟩ := exists_words_of_parseToken hwords
    rw [loadImage_fails hrun ((checkImage_of_words htokens).trans (if_pos hlarge))]

end Sys2Proof.Machine
end

section
/-! PROOFS. What the blocks drive in one iteration (42_sequencer_and_host.md R145, R160; 60_exceptions.md R182): the commit
enables of each class, and the strobes against the change of the state. -/

namespace Sys2Proof.Machine

/-! ### The commit table -/

theorem stepFault_isSome_iff (d : DecoderPorts) (a : AluPorts) :
    (stepFault d a).isSome = true ↔
      (d.useReg1 = true ∧ d.reg1Oor = true) ∨ (d.useReg2 = true ∧ d.reg2Oor = true) ∨ a.dataOor = true := by
  simp only [← Bool.and_eq_true, stepFault]
  cases d.useReg1 && d.reg1Oor with
  | true => simp
  | false =>
    cases d.useReg2 && d.reg2Oor with
    | true => simp
    | false => cases a.dataOor <;> simp

/-- A step without a fault: every enable by the class of its word (42_sequencer_and_host.md R160). -/
theorem commitEnables_of_no_fault (d : DecoderPorts) :
    commitEnables d false =
      { commit := true,
        pcSel := { clear := false, inc := d.opLoad || d.opAdd || d.opStore || d.opUnknown, load := d.opJump },
        we := d.opLoad || d.opAdd, dmemWe := d.opStore, diagValid := d.opUnknown, haltSignal := d.opHalt } := rfl

theorem opUnknown_eq_true_iff (w : Word) : (instructionDecoder w).opUnknown = true ↔
    opcodeOf w ≠ 0x1#4 ∧ opcodeOf w ≠ 0x2#4 ∧ opcodeOf w ≠ 0x3#4 ∧ opcodeOf w ≠ 0x4#4 ∧ opcodeOf w ≠ 0xF#4 := by
  simp [and_assoc]

section WriteData

variable (p : Params) {w : Word} (ra rb : Word)

theorem rfWdata_of_load (hop : opcodeOf w = 0x1#4) :
    (aluDatapath p (instructionDecoder w) ra rb).rfWdata = some ((valueOf w).setWidth 16) := by
  simp only [aluDatapath, instructionDecoder_opLoad, hop, beq_self_eq_true, if_true]
  rfl

theorem rfWdata_of_add (hop : opcodeOf w = 0x2#4) :
    (aluDatapath p (instructionDecoder w) ra rb).rfWdata = some (addWrap p.regWidth ra rb) := by
  simp [aluDatapath, hop]

end WriteData

/-! ### The iteration that executes a word -/

theorem StepFaults.exists_stepFault {s : State} {w : Word} (h : StepFaults s.params.memWords w) :
    ∃ k v, stepFault (instructionDecoder w) (s.aluPorts w) = some (.outOfRange k v) := by
  obtain ⟨o, ho⟩ := Option.isSome_iff_exists.1 ((stepFault_isSome s.params w _ _).2 h)
  obtain ⟨k, v, rfl⟩ := stepFault_outOfRange ho
  exact ⟨k, v, ho⟩

theorem stepFault_eq_none_of_not_stepFaults {s : State} {w : Word} (h : ¬ StepFaults s.params.memWords w) :
    stepFault (instructionDecoder w) (s.aluPorts w) = none :=
  Option.not_isSome_iff_eq_none.1 fun hsome => h ((stepFault_isSome s.params w _ _).1 hsome)

section Ports

variable (s : State) (f : FetchPorts) (w : Word)

theorem stepPhases_enables : (stepPhases s f w).2.enables =
    commitEnables (instructionDecoder w) (stepFault (instructionDecoder w) (s.aluPorts w)).isSome := rfl

theorem stepPhases_decoder : (stepPhases s f w).2.decoder = some (instructionDecoder w) := rfl

theorem stepPhases_alu : (stepPhases s f w).2.alu = some (s.aluPorts w) := rfl

end Ports

/-- R160: a step that faults drives no enable and ends the run with OutOfRange. -/
theorem blockCycle_of_stepFaults {s : State} {w : Word} (h : s.Executes w) (hfault : StepFaults s.params.memWords w) :
    (blockCycle s).2.enables = idleEnables ∧ (blockCycle s).1.runState = .stopped ∧
      ∃ k v, (blockCycle s).1.outcome = some (.outOfRange k v) := by
  obtain ⟨k, v, ho⟩ := hfault.exists_stepFault
  rw [blockCycle_executes h, stepPhases_enables, stepPhases_of_fault ho, ho]
  exact ⟨commitEnables_of_fault _, rfl, k, v, State.outcome_stop _ _⟩

/-- A step that does not fault drives the enables of its class, on the operands that the word names. -/
theorem blockCycle_ports_of_not_stepFaults {s : State} {w : Word} (h : s.Executes w)
    (hok : ¬ StepFaults s.params.memWords w) :
    (blockCycle s).2.enables = commitEnables (instructionDecoder w) false ∧
      (blockCycle s).2.decoder = some (instructionDecoder w) ∧ (blockCycle s).2.alu = some (s.aluPorts w) := by
  rw [blockCycle_executes h, stepPhases_enables, stepFault_eq_none_of_not_stepFaults hok]
  exact ⟨rfl, stepPhases_decoder _ _ _, stepPhases_alu _ _ _⟩

/-- Of the steps that do not fault only HALT's ends the run. -/
theorem blockCycle_runState_of_not_stepFaults {s : State} {w : Word} (h : s.Executes w)
    (hok : ¬ StepFaults s.params.memWords w) :
    ((instructionDecoder w).opHalt = false → (blockCycle s).1.runState = .running) ∧
      ((instructionDecoder w).opHalt = true →
        (blockCycle s).1.runState = .halted ∧ (blockCycle s).1.outcome = some .haltOpcode) := by
  rw [blockCycle_executes h, stepPhases_of_no_fault (stepFault_eq_none_of_not_stepFaults hok),
    instructionDecoder_opHalt]
  refine ⟨fun hgoes => ?_, fun hhalt => ?_⟩
  · rw [hgoes]
    exact h.fetches.running
  · rw [hhalt]
    exact ⟨rfl, State.outcome_stop _ _⟩

/-- Settles O46: the rows by the class's opcode, and the two kinds of iteration by the fault condition on the word. -/
theorem commitEnablesFollowTheTable : Obligations.CommitEnablesFollowTheTable := by
  refine ⟨fun p w ra rb => ⟨stepFault_isSome_iff _ _, commitEnables_of_fault _, fun hload => ?_, fun hadd => ?_,
    fun hstore => ?_, fun hjump => ?_, fun hhalt => ?_, fun hunknown => ?_⟩, fun s w => blockCycle_of_stepFaults,
    fun s w h hok => ?_⟩
  · have hop : opcodeOf w = 0x1#4 := beq_iff_eq.1 hload
    exact ⟨rfWdata_of_load p ra rb hop, by simp [commitEnables_of_no_fault, hop]⟩
  · have hop : opcodeOf w = 0x2#4 := beq_iff_eq.1 hadd
    exact ⟨rfWdata_of_add p ra rb hop, by simp [commitEnables_of_no_fault, hop]⟩
  · have hop : opcodeOf w = 0x3#4 := beq_iff_eq.1 hstore
    simp [commitEnables_of_no_fault, hop]
  · have hop : opcodeOf w = 0x4#4 := beq_iff_eq.1 hjump
    simp [commitEnables_of_no_fault, hop]
  · have hop : opcodeOf w = 0xF#4 := beq_iff_eq.1 hhalt
    simp [commitEnables_of_no_fault, hop]
  · obtain ⟨hl, ha, hs, hj, hh⟩ := (opUnknown_eq_true_iff w).1 hunknown
    simp [commitEnables_of_no_fault, hl, ha, hs, hj, hh]
  · obtain ⟨henables, hdecoder, halu⟩ := blockCycle_ports_of_not_stepFaults h hok
    exact ⟨henables, hdecoder, halu, blockCycle_runState_of_not_stepFaults h hok⟩

/-! ### The strobes -/

/-- What an iteration at `s` makes, with its ports, agrees: `done` with the end of a run, `diag` with the new report. -/
def StrobesAgree (s : State) (c : State × Signals) : Prop :=
  (c.2.done = true ↔ s.runState = .running ∧ c.1.runState ≠ .running) ∧ c.1.reports = s.reports ++ c.2.diag.toList

theorem strobesAgree_of_quiet {s : State} {p : Signals} (hdone : p.done = false) (hdiag : p.diag = none) :
    StrobesAgree s (s, p) := by
  simp [StrobesAgree, hdone, hdiag]

theorem strobesAgree_of_stop {s : State} {p : Signals} (hrun : s.runState = .running) (o : RunEnd) (hdone : p.done = true)
    (hdiag : p.diag = none) : StrobesAgree s (s.stop o, p) := by
  simp [StrobesAgree, hrun, hdone, hdiag]

theorem endPhase_runState_ne_running_iff {s : State} (hrun : s.runState = .running) (o : Option RunEnd) :
    (endPhase s o).runState ≠ .running ↔ o.isSome = true := by
  cases o with
  | none => simp [endPhase, hrun]
  | some o => simp [endPhase]

theorem endPhase_reports (s : State) (o : Option RunEnd) : (endPhase s o).reports = s.reports := by
  cases o <;> rfl

theorem commitPhase_reports (s : State) (d : DecoderPorts) (a : AluPorts) (en : Enables) :
    (commitPhase s d a en).reports =
      s.reports ++ (if en.diagValid then some { pc := s.pc, word := s.ir } else none : Option Report).toList := by
  rw [commitPhase]
  cases en.diagValid <;> simp

/-- The same reason for the end of a run reaches `done` and the state; the same `diag_valid` reaches `diag` and the list. -/
theorem stepPhases_strobesAgree {s : State} (hrun : s.runState = .running) (f : FetchPorts) (w : Word) :
    StrobesAgree s (stepPhases s f w) := by
  refine ⟨?_, ?_⟩
  · rw [and_iff_right hrun, stepPhases_fst]
    have hcommitted (d : DecoderPorts) (a : AluPorts) (en : Enables) :
        (commitPhase (s.latchIr w) d a en).runState = .running := hrun
    exact (endPhase_runState_ne_running_iff (hcommitted _ _ _) _).symm
  · exact (endPhase_reports _ _).trans (commitPhase_reports _ _ _ _)

theorem blockCycle_strobesAgree (s : State) : StrobesAgree s (blockCycle s) := by
  unfold blockCycle
  cases hrun : s.runState with
  | running =>
    dsimp only
    split
    · exact strobesAgree_of_stop hrun _ rfl rfl
    · exact stepPhases_strobesAgree hrun _ _
    · exact strobesAgree_of_quiet rfl rfl
  | idle | halted | stopped => exact strobesAgree_of_quiet rfl rfl

/-- Settles O47: by the ways an iteration of the blocks can go. -/
theorem strobesFollowTheState : Obligations.StrobesFollowTheState :=
  blockCycle_strobesAgree

end Sys2Proof.Machine
end

section
/-! PROOFS. The checks of one iteration and the errors they raise (60_exceptions.md R183 to R192): which fault a word raises,
read from the word as a number, that no other effect stops a run with an error, and that outside a run nothing moves. -/

namespace Sys2Proof.Machine

/-! ### The details of the errors as numbers -/

theorem fieldInfo_reg1Of (w : Word) : fieldInfo (reg1Of w) = BitVec.ofNat 16 (w.toNat / 256 % 16) := by
  rw [← reg1Of_toNat, BitVec.ofNat_toNat]
  rfl

theorem fieldInfo_reg2Of (w : Word) : fieldInfo (reg2Of w) = BitVec.ofNat 16 (w.toNat / 16 % 16) := by
  rw [← reg2Of_toNat, BitVec.ofNat_toNat]
  rfl

theorem absAddr_valueOf (w : Word) : absAddr (valueOf w) = BitVec.ofNat 16 (w.toNat % 256) := by
  rw [← valueOf_toNat, BitVec.ofNat_toNat]
  rfl

/-! ### The fault of a word -/

theorem Reg.exists_field_eq {f : BitVec 4} (h : f.toNat < 8) : ∃ r : Reg, f = r.field := by
  have hsome : Reg.ofField f ≠ none := fun hnone => Nat.not_le.2 h ((Reg.ofField_eq_none f).1 hnone)
  obtain ⟨r, hr⟩ := Option.ne_none_iff_exists'.1 hsome
  exact ⟨r, Reg.field_of_ofField hr⟩

theorem Reg.exists_field_eq_reg1Of {w : Word} (h : w.toNat / 256 % 16 < 8) : ∃ r : Reg, reg1Of w = r.field :=
  Reg.exists_field_eq ((reg1Of_toNat w).trans_lt h)

/-- R185 for `reg1`. -/
theorem faultsWith_reg1 {w : Word} (n : Nat) (hop : 1 ≤ w.toNat / 4096 ∧ w.toNat / 4096 ≤ 3)
    (hreg1 : 8 ≤ w.toNat / 256 % 16) : FaultsWith n w (.outOfRange .reg1 (fieldInfo (reg1Of w))) := by
  have hcases : w.toNat / 4096 = 1 ∨ w.toNat / 4096 = 2 ∨ w.toNat / 4096 = 3 := by omega
  exact .reg1 (hcases.imp opcodeOf_eq_of_div (Or.imp opcodeOf_eq_of_div opcodeOf_eq_of_div))
    ((Reg.ofField_eq_none _).2 (hreg1.trans_eq (reg1Of_toNat w).symm))

/-- R186 for `reg2`, which is checked after `reg1`. -/
theorem faultsWith_reg2 {w : Word} (n : Nat) (hop : w.toNat / 4096 = 2) (hreg1 : w.toNat / 256 % 16 < 8)
    (hreg2 : 8 ≤ w.toNat / 16 % 16) : FaultsWith n w (.outOfRange .reg2 (fieldInfo (reg2Of w))) := by
  obtain ⟨d, hd⟩ := Reg.exists_field_eq_reg1Of hreg1
  exact .reg2 (opcodeOf_eq_of_div hop) hd ((Reg.ofField_eq_none _).2 (hreg2.trans_eq (reg2Of_toNat w).symm))

/-- R187 for the address of a STORE, which is checked after `reg1`. -/
theorem faultsWith_data {n : Nat} {w : Word} (hop : w.toNat / 4096 = 3) (hreg1 : w.toNat / 256 % 16 < 8)
    (hout : n ≤ w.toNat % 256) : FaultsWith n w (.outOfRange .data (absAddr (valueOf w))) := by
  obtain ⟨r, hr⟩ := Reg.exists_field_eq_reg1Of hreg1
  refine .data (opcodeOf_eq_of_div hop) hr ?_
  rwa [absAddr_toNat, valueOf_toNat]

/-- The fault condition on the word holds wherever the word faults. -/
theorem FaultsWith.stepFaults {n : Nat} {w : Word} {o : RunEnd} (h : FaultsWith n w o) : StepFaults n w := by
  have hdiv {k : BitVec 4} (hop : opcodeOf w = k) : w.toNat / 4096 = k.toNat := hop ▸ (opcodeOf_toNat w).symm
  cases h with
  | reg1 hop hnone =>
    have hreg1 := (Reg.ofField_eq_none _).1 hnone
    rw [reg1Of_toNat] at hreg1
    have hcases : w.toNat / 4096 = 1 ∨ w.toNat / 4096 = 2 ∨ w.toNat / 4096 = 3 := hop.imp hdiv (Or.imp hdiv hdiv)
    exact .inl (by omega)
  | reg2 hop _ hnone =>
    have hreg2 := (Reg.ofField_eq_none _).1 hnone
    rw [reg2Of_toNat] at hreg2
    exact .inr (.inl ⟨hdiv hop, hreg2⟩)
  | data hop _ hout =>
    rw [absAddr_toNat, valueOf_toNat] at hout
    exact .inr (.inr ⟨hdiv hop, hout⟩)

/-! ### The iteration that raises an error -/

theorem step_of_faultsWith {s : State} {w : Word} {o : RunEnd} (h : s.Executes w)
    (hfault : FaultsWith s.params.memWords w o) : step s = .next ((s.latchIr w).stop o) :=
  step_of_wordEffect h (.fault hfault)

/-- Of a word's effects only a fault's ends the run with an error. -/
theorem WordEffect.fault_of_stopped {w : Word} {s t : State} (h : WordEffect w s t) (hrun : s.runState = .running)
    (hstopped : t.runState = .stopped) : ∃ o, FaultsWith s.params.memWords w o ∧ t = s.stop o := by
  cases h with
  | fault hfault => exact ⟨_, hfault, rfl⟩
  | load | add | store | jump | unknown => exact absurd (hrun.symm.trans hstopped) nofun
  | halt => exact absurd hstopped nofun

/-- R183: an error leaves the state as it was, or as the fetch of the executed word left it, but for the status. -/
theorem step_stopped_cases {s t : State} (h : step s = .next t) (hrun : s.runState = .running)
    (hstopped : t.runState = .stopped) :
    t = s.stop (.outOfRange .fetch s.pc) ∨ t = s.stop .stepLimit ∨
      ∃ o, FaultsWith s.params.memWords (s.peek s.pc.toNat) o ∧ t = (s.latchIr (s.peek s.pc.toNat)).stop o := by
  obtain ⟨hok, ⟨hquiet, -⟩ | ⟨-, -, rfl⟩ | ⟨-, -, -, rfl⟩ | ⟨-, -, -, -, rfl⟩ | ⟨-, hin, hsentinel, hlimit, -⟩⟩ :=
    step_next h
  · exact absurd hrun hquiet
  · exact .inl rfl
  · exact absurd hstopped nofun
  · exact .inr (.inl rfl)
  · have hexec : s.Executes (s.peek s.pc.toNat) := ⟨⟨hok, hrun, hin, rfl⟩, hsentinel, hlimit⟩
    exact .inr (.inr ((wordEffect_of_executes hexec h).fault_of_stopped hrun hstopped))

/-- Settles O20: by the ways an iteration stops with an error, each of which is one `stop`. -/
theorem errorsArePrecise : Obligations.ErrorsArePrecise := by
  intro s t hrun h hstopped
  rcases step_stopped_cases h hrun hstopped with rfl | rfl | ⟨o, hfault, rfl⟩
  · exact ⟨rfl, .inl ⟨rfl, rfl⟩⟩
  · exact ⟨rfl, .inr (.inr (.inr (.inr ⟨rfl, rfl⟩)))⟩
  · cases hfault with
    | reg1 => exact ⟨rfl, .inr (.inl ⟨rfl, rfl⟩)⟩
    | reg2 => exact ⟨rfl, .inr (.inr (.inl ⟨rfl, rfl⟩))⟩
    | data => exact ⟨rfl, .inr (.inr (.inr (.inl ⟨rfl, rfl⟩)))⟩

/-! ### The order of the checks -/

/-- A word that passes the operand checks does not stop the run with an error. -/
theorem step_runState_ne_stopped {s t : State} {w : Word} (h : s.Executes w) (hstep : step s = .next t)
    (hok : ¬ StepFaults s.params.memWords w) : t.runState ≠ .stopped := by
  intro hstopped
  obtain ⟨o, hfault, -⟩ := (wordEffect_of_executes h hstep).fault_of_stopped h.fetches.running hstopped
  exact hok hfault.stepFaults

/-- Settles O15: each check's premises give the one answer of `step`, and a word that passes them all has no fault. -/
theorem firstFailingCheckEndsTheRun : Obligations.FirstFailingCheckEndsTheRun := by
  intro s w hok hrun hw
  obtain ⟨t, ht⟩ := step_answers_next hok
  have answer {u : State} (hu : step s = .next u) : t = u := Host.Outcome.next.inj (ht.symm.trans hu)
  refine ⟨t, ht, fun hout => answer (step_of_pc_outside hok hrun hout), fun hin hsentinel => ?_,
    fun hin hsentinel hlimit => ?_, fun hin hsentinel hbelow => ?_⟩
  · exact answer (step_of_fetches_sentinelWord ⟨hok, hrun, hin, hw.symm.trans hsentinel⟩)
  · exact answer (step_of_limit_reached ⟨hok, hrun, hin, hw.symm⟩ hsentinel hlimit)
  have hexec : s.Executes w := ⟨⟨hok, hrun, hin, hw.symm⟩, hsentinel, hbelow⟩
  refine ⟨fun hop hreg1 => ?_, fun hop hreg1 hreg2 => ?_, fun hop hreg1 hout => ?_, fun hreg1 hreg2 haddr => ?_⟩
  · rw [← fieldInfo_reg1Of, answer (step_of_faultsWith hexec (faultsWith_reg1 _ hop hreg1))]
    rfl
  · rw [← fieldInfo_reg2Of, answer (step_of_faultsWith hexec (faultsWith_reg2 _ hop hreg1 hreg2))]
    rfl
  · rw [← absAddr_valueOf, answer (step_of_faultsWith hexec (faultsWith_data hop hreg1 hout))]
    rfl
  · refine step_runState_ne_stopped hexec ht ?_
    rintro (⟨hlo, hhi, hfault⟩ | ⟨hop, hfault⟩ | ⟨hop, hfault⟩)
    · exact Nat.not_le.2 (hreg1 ⟨hlo, hhi⟩) hfault
    · exact Nat.not_le.2 (hreg2 hop) hfault
    · exact Nat.not_le.2 (haddr hop) hfault

/-! ### The fetch past the end -/

/-- R184: inside memory only the last cell has its successor at `N`, and a JUMP's target is at most 256. -/
theorem WordEffect.pc_past_end {w : Word} {s t : State} (h : WordEffect w s t) (hok : s.params.ok = true)
    (hrun : s.runState = .running) (hin : s.pc.toNat < s.params.memWords) (hgoes : t.runState = .running)
    (hout : s.params.memWords ≤ t.pc.toNat) :
    (s.pc.toNat = s.params.memWords - 1 ∧ t.pc.toNat = s.params.memWords) ∨
      (opcodeOf w = 0x4#4 ∧ s.params.memWords ≤ 256) := by
  obtain ⟨hnext, hjump, hhalt⟩ := (h.pc_follows_table hrun).2 (hgoes ▸ nofun)
  by_cases h4 : opcodeOf w = 0x4#4
  · rw [hjump h4] at hout
    exact .inr ⟨h4, hout.trans (jumpTarget_le _ _)⟩
  by_cases h15 : opcodeOf w = 0xF#4
  · rw [hhalt h15] at hout
    exact absurd hin (Nat.not_lt.2 hout)
  · have hsucc : t.pc.toNat = s.pc.toNat + 1 := by
      have hle := Params.memWords_le_of_ok hok
      rw [hnext h4 h15]
      bv_omega
    exact .inl (by omega)

/-- Settles O16: the bounds check stands before the read, and an effect that goes on moves `pc` by its table. -/
theorem fetchPastTheEndEndsTheRun : Obligations.FetchPastTheEndEndsTheRun := by
  refine ⟨fun _ => step_of_pc_outside, fun s t w h hstep hgoes hout => ?_⟩
  obtain ⟨hok, hrun, hin, -⟩ := h.fetches
  refine ((wordEffect_of_executes h hstep).pc_past_end hok hrun hin hgoes hout).imp id fun ⟨hop, hle⟩ => ⟨?_, hle⟩
  rw [← opcodeOf_toNat, hop]
  rfl

/-! ### The address of a STORE -/

/-- The detail of OutOfRange(DATA) is an 8-bit address at or above `N`, so a larger memory never leaves that cause. -/
theorem State.statusOk.cause_ne_oorData {s : State} (h : s.statusOk) (hn : 255 < s.params.memWords) :
    s.cause ≠ .oorData := by
  intro hcause
  rw [State.statusOk, hcause] at h
  obtain ⟨-, hlo, hhi⟩ := h
  omega

theorem WordEffect.cause_ne_oorData {w : Word} {s t : State} (h : WordEffect w s t) (hn : 255 < s.params.memWords)
    (hcause : s.cause ≠ .oorData) : t.cause ≠ .oorData := by
  cases h with
  | fault hfault => exact hfault.statusOk_stop.cause_ne_oorData hn
  | halt => exact nofun
  | load | add | store | jump | unknown => exact hcause

theorem step_cause_ne_oorData {s t : State} (h : step s = .next t) (hn : 255 < s.params.memWords)
    (hcause : s.cause ≠ .oorData) : t.cause ≠ .oorData := by
  rcases step_holds_or_ends_or_executes h with ⟨-, rfl⟩ | ⟨o, hstatus, rfl⟩ | ⟨w, -, heffect⟩
  · exact hcause
  · exact hstatus.cause_ne_oorData hn
  · exact heffect.cause_ne_oorData hn hcause

/-- Settles O17: the fault of a STORE's address, and the 8 bits of that address against the 8192 cells. -/
theorem storeAddressIsCheckedAgainstMemorySize : Obligations.StoreAddressIsCheckedAgainstMemorySize := by
  refine ⟨fun s w h hop hreg1 hout => ?_, fun s t hn hcause hstep => ?_⟩
  · exact ⟨_, step_of_faultsWith h (faultsWith_data hop hreg1 hout), rfl⟩
  · exact step_cause_ne_oorData hstep (by omega) hcause

/-! ### Outside a run -/

/-- Settles O22: the run loop holds, and every command but `start` keeps `STATE`. -/
theorem quietStatesHold : Obligations.QuietStatesHold := by
  refine ⟨fun _ => step_of_not_running, fun s t c r hrun hc h => ?_⟩
  rcases hostCommand_runState h with ⟨hstart, -⟩ | ⟨-, hkept⟩
  · exact absurd hstart hc
  · rwa [hkept]

end Sys2Proof.Machine
end

section
/-! PROOFS. The two resets (70_reset_and_hazards.md R210, R211): what power-on leaves in every piece of state, that the
invariant begins there, and that `start` resets the run and nothing else. -/

namespace Sys2Proof.Machine

/-! ### Power-on reset -/

@[simp] theorem State.powerOn_x (p : Params) (r : Reg) : (State.powerOn p).x r = 0 := by
  cases r <;> rfl

@[simp] theorem State.powerOn_peek (p : Params) (a : Nat) : (State.powerOn p).peek a = 0 :=
  Memory.read_nil a

/-- Settles O35: the scalar fields are those of the definition; the registers and the cells are read back. -/
theorem powerOnResetValues : Obligations.PowerOnResetValues :=
  fun p => ⟨rfl, State.powerOn_x p, rfl, State.powerOn_runState p, rfl, rfl, rfl, rfl, State.powerOn_peek p⟩

/-- The empty list of cells is canonical and lists nothing outside the memory (20_memory.md R68). -/
theorem State.powerOn_memOk (p : Params) : (State.powerOn p).memOk :=
  ⟨rfl, rfl⟩

/-- IDLE stands with no cause and no detail (10_state.md R36, R37, R38). -/
theorem State.powerOn_statusOk (p : Params) : (State.powerOn p).statusOk :=
  ⟨.inl (State.powerOn_runState p), rfl⟩

/-- `pc` and `STEP_COUNT` begin at 0, so of the parameters only their admission is asked. -/
theorem State.powerOn_inv {p : Params} (h : p.ok = true) : (State.powerOn p).Inv where
  params := h
  regs := State.powerOn_regsBounded p
  pc := Nat.zero_le _
  mem := State.powerOn_memOk p
  status := State.powerOn_statusOk p
  count := fun _ _ => Nat.zero_le _

theorem Params.neo5_ok : Params.neo5.ok = true := by
  decide

/-- Settles O32: the parameters of this hardware are admitted ones. -/
theorem powerOnSatisfiesInvariant : Obligations.PowerOnSatisfiesInvariant :=
  ⟨fun _ => State.powerOn_inv, State.powerOn_inv Params.neo5_ok⟩

/-! ### Start -/

theorem hostCommand_start_of_not_running {s : State} (h : s.runState ≠ .running) :
    hostCommand .start s = .next (s.startRun, .started) :=
  betweenRuns_of_not_running h _

/-- Settles O36: between runs the command is admitted, and `startRun` is the record update of R211. -/
theorem startIsAPartialReset : Obligations.StartIsAPartialReset :=
  fun _ => hostCommand_start_of_not_running

end Sys2Proof.Machine
end
